-- ==== Sys2Proof/Word.lean ====
section
/-! DEFINITION. The word and array types of the core: the widths of spec/00_scope.md rule R4 and spec/10_state.md rules R20 to R30.
Word arithmetic is that of `BitVec`: addition modulo 2^32 and bitwise exclusive or (R5). -/

namespace Sys2Proof

/-- An unsigned 8-bit byte (BYTE = 8, R4). -/
abbrev Byte := BitVec 8

/-- An unsigned 32-bit word (W = 32, R4); `+` on it is addition modulo 2^32 and discards the carry (R5). -/
abbrev Word := BitVec 32

/-- The 16-bit command word `cw[15:0]` (R61). -/
abbrev CommandWord := BitVec 16

/-- The Seed: NSEED = 32 words (R4, R20). -/
abbrev Seed := Vector Word 32

/-- A Block: NBLK = 12 words, 8 data words then 4 counter words (R4, R24). -/
abbrev Block := Vector Word 12

/-- Eight words: the mixer's output and the digest sum (NOUT = 8, R4, R26, R27). -/
abbrev Lanes := Vector Word 8

/-- The block counter: NCTR = 4 words, least significant word first (R4, R23). -/
abbrev Counter := Vector Word 4

/-- The byte buffer: BUFBYTES = 32 bytes (R4, R21). -/
abbrev Buffer := Vector Byte 32

/-- The raw digest: DIGESTBYTES = 32 bytes (R4, R30). -/
abbrev Digest := Vector Byte 32

end Sys2Proof
end

