-- ==== Sys2Proof/Config.lean ====
section
/-! DEFINITION. The parameters of the hardware with the value the spec gives each (spec/00_scope.md rule R4). The widths and counts
that are types (W, BYTE, NSEED, NBLK, NCTR, NOUT, BUFBYTES, DIGESTBYTES) stand in Sys2Proof/Word.lean. The spec leaves no value to
the implementation but SEED_VALUE, which is an operand of INIT, so this file declares no free value. -/

namespace Sys2Proof.Config

/-- OUTER: outer rounds of one MIX (R4, R72). -/
@[simp] abbrev outerRounds : Nat := 2

/-- INNER: inner rounds of one outer round (R4, R72). -/
@[simp] abbrev innerRounds : Nat := 16

/-- DELTA: the constant added to the round sum in each inner round (R4, R73). -/
abbrev delta : Word := 0x9e3779b9

/-- ROT: the rotate amounts, used cyclically (R4, R75). -/
abbrev rot : Vector Nat 4 := #v[5, 7, 9, 13]

/-- SEED_T_BASE: the first Seed index that whitens the block (R4, R46). -/
@[simp] abbrev seedTBase : Nat := 12

/-- SEED_OUT_BASE: the first Seed index that starts the output (R4, R46). -/
@[simp] abbrev seedOutBase : Nat := 24

/-- FOLD_OFFSET: the fold takes working word `i + 4` into output word `i` (R4, R77). -/
@[simp] abbrev foldOffset : Nat := 4

/-- BUFBYTES as a number: the cursor value at which the buffer is full (R4, R91). -/
@[simp] abbrev bufBytes : Nat := 32

/-- The most padding bytes one FINALIZE can need (R10, R101). -/
@[simp] abbrev maxPadding : Nat := 31

/-- END_MARK: the end marker '.' (R4, R98). -/
abbrev endMark : Byte := 0x2E

/-- PAD: the padding byte (R4, R98). -/
abbrev pad : Byte := 0x00

/-- The two members of SKIP_SET: space and horizontal tab (R4, R96). -/
abbrev space : Byte := 0x20
abbrev tab : Byte := 0x09

/-- UPPER: the bytes 'A'..'Z' (R4, R96). -/
abbrev upperFirst : Byte := 0x41
abbrev upperLast : Byte := 0x5A

/-- FOLD_DELTA: 'A'..'Z' to 'a'..'z' (R4, R96). -/
abbrev foldDelta : Byte := 0x20

/-- SEED_VALUE: the Seed of the documented usage, all words zero (R4, D7). -/
abbrev seedValue : Seed := Vector.replicate 32 0

end Sys2Proof.Config
end

