-- ==== Sys2Proof/Syntax.lean ====
section
/-! DEFINITION. The instructions: one constructor per row of spec/opcode_table.json (spec/30_encoding.md rules R60, R62). -/

namespace Sys2Proof

/-- The four commands of the core (R60, R62). -/
inductive Instr where
  /-- INIT: its operand is the 32 Seed words sampled from `seed_in` (R68, R90). -/
  | init (seed : Seed)
  /-- INGEST: its operand is the byte `cw[7:0]` (R63, R95). -/
  | ingest (byte : Byte)
  /-- INGESTF: its operand is the byte `cw[7:0]` (R63, R97). -/
  | ingestf (byte : Byte)
  /-- FINALIZE: no operand (R98). -/
  | finalize
deriving DecidableEq, Repr

end Sys2Proof
end

