-- ==== Sys2Proof/WellFormed.lean ====
section
/-! DEFINITION. What the host puts on the command port, and when it is a command at all (spec/30_encoding.md rules R61, R64). Every
term of `Instr` is well formed, since every operand value is legal (R11, R63, R68): what can be ill formed is a command word, and the
checks below are the three groups of reserved words of R64. -/

namespace Sys2Proof

/-- What the host presents with `cmd_valid`: the command word and the Seed inputs, sampled as the command is taken (R61, R68). -/
structure Command where
  word : CommandWord
  seedIn : Seed
deriving DecidableEq, Repr

/-- The three fields of a command word (R61). -/
structure Fields where
  op : BitVec 4
  mbz : BitVec 4
  byte : Byte
deriving DecidableEq, Repr

/-- The operation code is one of 0x1 to 0x4 (R62, R64). -/
def Fields.opKnown (f : Fields) : Bool :=
  f.op == 0x1 || f.op == 0x2 || f.op == 0x3 || f.op == 0x4

/-- The must-be-zero field is zero (R61, R64). -/
def Fields.mbzClear (f : Fields) : Bool := f.mbz == 0

/-- The byte field is zero in INIT and FINALIZE, which have no byte operand (R61, R64). -/
def Fields.byteClear (f : Fields) : Bool :=
  !(f.op == 0x1 || f.op == 0x4) || f.byte == 0

/-- A command word that is no reserved word (R64). -/
def Fields.wellFormed (f : Fields) : Bool :=
  f.opKnown && f.mbzClear && f.byteClear

/-- The fields of an instruction's command word: its operation code of R62, a zero `mbz` and its byte operand, if any (R61). -/
def Instr.fields : Instr → Fields
  | .init _ => ⟨0x1, 0, 0⟩
  | .ingest b => ⟨0x2, 0, b⟩
  | .ingestf b => ⟨0x3, 0, b⟩
  | .finalize => ⟨0x4, 0, 0⟩

/-- An instruction is well formed when its command word is; Sys2Proof/Laws/PerInstr.lean shows that each is. -/
def Instr.wellFormed (i : Instr) : Bool := i.fields.wellFormed

end Sys2Proof
end

