-- ==== Sys2Proof/Machine/State.lean ====
section
/-! DEFINITION. The state of one StreamingHasher instance (spec/10_state.md), what the host sends it, the reasons a step can stop,
and the state after reset. -/

namespace Sys2Proof.Machine

/-- `PHASE` (R29): where the instance stands in the contract init, ingest, finalize. The value 3 is never taken. -/
inductive Phase where
  /-- After reset and before the first INIT (0). -/
  | uninit
  /-- After INIT, while bytes are accepted (1). -/
  | absorb
  /-- After FINALIZE, while the digest is valid (2). -/
  | done
deriving DecidableEq, Repr

/-- What the core signals on `rej[1:0]` while a command is taken (R121, R122). -/
inductive RejCode where
  /-- 0: the command is accepted, or no command is being taken. -/
  | accepted
  /-- 1: the command word is reserved. -/
  | reservedEncoding
  /-- 2: INGEST, INGESTF or FINALIZE in `UNINIT`. -/
  | notInitialised
  /-- 3: INGEST, INGESTF or FINALIZE in `DONE`. -/
  | afterFinalize
deriving DecidableEq, Repr

/-- What the host can do to the core between two commands (R133). Reading the outputs changes nothing (R45) and is no event. -/
inductive HostEvent where
  /-- `rst` is asserted and released (R140). -/
  | reset
  /-- A command is presented with `cmd_valid` and taken (R61). -/
  | command (c : Command)
deriving DecidableEq, Repr

/-- The state: the tuple of spec/10_state.md (`SEED`, `BUF`, `CTR`, `CURSOR`, `SUM`, `OUT`, `PHASE`, `DIGEST`), the output `rej`, and
the model's own field `pending`. The working values of a MIX exist only inside it (R28, R36): Sys2Proof/Machine/Mixer.lean. -/
structure State where
  /-- `SEED[0..31]` (R20). -/
  seed : Seed
  /-- `BUF[0..31]` (R21). -/
  buf : Buffer
  /-- `CTR[0..3]`, least significant word first (R23). -/
  ctr : Counter
  /-- `CURSOR`, six bits (R25, R36). -/
  cursor : BitVec 6
  /-- `SUM[0..7]`, the digest sum (R26). -/
  sum : Lanes
  /-- `OUT[0..7]`, the output of the last MIX (R27). -/
  out : Lanes
  /-- `PHASE` (R29). -/
  phase : Phase
  /-- `DIGEST[0..31]` (R30). -/
  digest : Digest
  /-- What `rej[1:0]` signals during the step just taken (R121; log entry 3). -/
  rej : RejCode
  /-- The model's own field: what the host sends, in order, from now on (log entry 4). -/
  pending : List HostEvent
deriving DecidableEq, Repr

/-- Why the machine stops. The core itself raises nothing (R120). -/
inductive Fault where
  /-- PUT with `CURSOR` at 32 or more, which its precondition excludes (R91): `BUF[32]` does not exist. Raised by INGEST, INGESTF and
  FINALIZE. Safe: no run reaches such a cursor (R25, R34). -/
  | bufIndexOutOfRange
deriving DecidableEq, Repr

/-- Why an instruction has no meaning. -/
inductive Refusal where
  /-- An instruction without a meaning yet. Raised by no arm of `exec`: every instruction has its meaning. Safe. -/
  | notModelled (mnemonic : String)
deriving DecidableEq, Repr

/-- The machine right after reset (R140): `PHASE` is `UNINIT`, `rej` is 0, nothing is pending. The spec leaves every other element
unspecified; the zeros are the model's DESIGN CHOICE (log entry 1, unsafe). -/
def State.reset : State where
  seed := Vector.replicate 32 0
  buf := Vector.replicate 32 0
  ctr := Vector.replicate 4 0
  cursor := 0
  sum := Vector.replicate 8 0
  out := Vector.replicate 8 0
  phase := .uninit
  digest := Vector.replicate 32 0
  rej := .accepted
  pending := []

end Sys2Proof.Machine
end

