-- ==== Sys2Proof/Machine/Operands.lean ====
section
/-! DEFINITION. Words, bytes and the views of the state: rotation (spec/00_scope.md R6), little-endian conversions (R7), the word view
of the buffer and the block (spec/10_state.md R22, R24), the counter as a number (R23), the final block (R106), the digest's byte
order (spec/20_memory.md R42), and the codes of `STATUS` and `rej` (R33, R122). -/

namespace Sys2Proof.Machine

/-- 32-bit left rotation by `0 < b < 32` (R6): the shifted-out high bits come back at the low end. -/
def rotl (x : Word) (b : Nat) : Word := (x <<< b) ||| (x >>> (32 - b))

/-- Four bytes as a word, the first in bits 7:0 (R7). -/
def leWord (b0 b1 b2 b3 : Byte) : Word := b3 ++ b2 ++ b1 ++ b0

/-- Byte `k` of a word: `w[8k+7:8k]` (R7). -/
def leByte (w : Word) (k : Nat) : Byte := w.extractLsb' (8 * k) 8

/-- `BUF[k]`: one byte of the buffer. -/
def bufByte (buf : Buffer) (k : Fin 32) : Byte := buf[k]

/-- `DATA[j]`, the word `MemRead(4j, 4)` (R8, R22, R41). -/
def dataWord (buf : Buffer) (j : Fin 8) : Word :=
  leWord buf[4 * j.val] buf[4 * j.val + 1] buf[4 * j.val + 2] buf[4 * j.val + 3]

/-- A block: eight data words, then the four counter words (R24). -/
def mkBlock (data : Lanes) (ctr : Counter) : Block :=
  Vector.ofFn fun i : Fin 12 =>
    if h : i.val < 8 then data[i.val] else ctr[i.val - 8]'(by omega)

/-- `BLK[0..11]`: the view of the buffer and the counter handed to MIX at a flush (R24). -/
def blockView (buf : Buffer) (ctr : Counter) : Block :=
  mkBlock (Vector.ofFn fun j : Fin 8 => dataWord buf j) ctr

/-- The fresh block of FINALIZE: the digest sum and four zero words (R98, R106). -/
def finalBlock (sum : Lanes) : Block := mkBlock sum (Vector.replicate 4 0)

/-- The four counter words as one 128-bit number, least significant word first (R23). -/
def ctrValue (ctr : Counter) : Nat :=
  ctr[0].toNat + 2 ^ 32 * ctr[1].toNat + 2 ^ 64 * ctr[2].toNat + 2 ^ 96 * ctr[3].toNat

/-- The digest bytes of eight words: `DIGEST[4j+k] = OUT[j][8k+7:8k]` (R30, R42). -/
def serialise (o : Lanes) : Digest :=
  Vector.ofFn fun n : Fin 32 => leByte (o[n.val / 4]'(by omega)) (n.val % 4)

/-- The two-bit code of a phase (R29). -/
def Phase.code : Phase → BitVec 2
  | .uninit => 0
  | .absorb => 1
  | .done => 2

/-- The two-bit code on `rej[1:0]` (R122). -/
def RejCode.code : RejCode → BitVec 2
  | .accepted => 0
  | .reservedEncoding => 1
  | .notInitialised => 2
  | .afterFinalize => 3

/-- `STATUS`: bits 1:0 are `PHASE`, bits 7:2 read as zero (R33). -/
def State.status (s : State) : BitVec 8 := (0 : BitVec 6) ++ s.phase.code

end Sys2Proof.Machine
end

