-- ==== Sys2Proof/Machine/Flags.lean ====
section
/-! DEFINITION. The core has no flags: nothing records a carry, overflow, zero or sign (spec/10_state.md R32). This file holds the only
tests the controller makes, which R32 lists, each used where it is computed and stored nowhere: the two tests of the cursor, the wrap
of a counter word, and the byte classes of FILTER (spec/41_streaming_hasher.md R96). -/

namespace Sys2Proof.Machine

/-- `CURSOR = 32`: the buffer is full (R91). -/
def cursorFull (c : BitVec 6) : Bool := c == 32

/-- `CURSOR != 0`: the padding loop goes on (R98). -/
def cursorNonzero (c : BitVec 6) : Bool := c != 0

/-- A counter word that has just been incremented has wrapped to 0, so the next one is incremented (R93). -/
def wrapped (w : Word) : Bool := w == 0

/-- A byte FILTER drops: space or horizontal tab (R96). -/
def isSkipped (c : Byte) : Bool := c == Config.space || c == Config.tab

/-- A byte FILTER folds: 'A'..'Z' (R96). -/
def isUpper (c : Byte) : Bool := Config.upperFirst ≤ c && c ≤ Config.upperLast

/-- The result of FILTER (R96). -/
inductive Filtered where
  /-- The byte is skipped entirely. -/
  | drop
  /-- The byte is inserted, folded if it was an upper-case letter. -/
  | keep (c : Byte)
deriving DecidableEq, Repr

/-- FILTER: the case and whitespace filter of INGESTF (R96). -/
def filterByte (c : Byte) : Filtered :=
  if isSkipped c then .drop
  else if isUpper c then .keep (c + Config.foldDelta)
  else .keep c

end Sys2Proof.Machine
end

