-- ==== Sys2Proof/Machine/Mixer.lean ====
section
/-! DEFINITION. The BlockMixer: MIX as one function (spec/40_blockmixer.md R70 to R79) and, beside it, MIX run one step at a time by
its position (R84). Both are built of the same parts: set-up (R71), round-sum advance (R73), step (R74), fold (R77). -/

namespace Sys2Proof.Machine

/-- What exists inside one MIX (R28): working words, accumulator, round sum, and the output being formed. -/
structure MixState where
  t : Vector Word 12
  x : Word
  rsum : Word
  out : Lanes
deriving DecidableEq, Repr

/-- `seed[i]`: the step key of working word `i` (R46, R78). -/
def stepKey (seed : Seed) (i : Fin 12) : Word := seed[i.val]

/-- `seed[12+i]`: what whitens block word `i` (R46, R78). -/
def whitenKey (seed : Seed) (i : Fin 12) : Word := seed[Config.seedTBase + i.val]'(by simp; omega)

/-- `seed[24+i]`: what starts output word `i` (R46, R78). -/
def outKey (seed : Seed) (i : Fin 8) : Word := seed[Config.seedOutBase + i.val]'(by simp; omega)

/-- The working words at the start: the whitened block (R71). -/
def whiten (block : Block) (seed : Seed) : Vector Word 12 :=
  Vector.ofFn fun i : Fin 12 => block[i] ^^^ whitenKey seed i

/-- Set-up (R71): the accumulator is the whitened word 11 and the round sum starts at 0 on every invocation (D2). -/
def mixSetup (block : Block) (seed : Seed) : MixState :=
  { t := whiten block seed
    x := (whiten block seed)[11]
    rsum := 0
    out := Vector.ofFn fun i : Fin 8 => outKey seed i }

/-- Round-sum advance, at the start of every inner round (R73). The constant stands first so that the kernel does not count it down in
unary when it compares terms. -/
def advanceRsum (m : MixState) : MixState := { m with rsum := Config.delta + m.rsum }

/-- The rotate amount of index `i` (R75). -/
def rotOf (i : Fin 12) : Nat := Config.rot[i.val % 4]

/-- MUSH, one step (R74): `y` keys the accumulator and adds the round sum, `z` mixes in the rotated old accumulator, and the whole of
`z` is added to the working word (C2, D1). The new word is also the new accumulator. -/
def mush (seed : Seed) (i : Fin 12) (b : Nat) (m : MixState) : MixState :=
  let y := (m.x ^^^ stepKey seed i) + m.rsum
  let z := y ^^^ rotl m.x b
  let n := m.t[i] + z
  { m with t := m.t.set i.val n, x := n }

/-- The order of the steps of an inner round: ascending (R76). -/
def stepOrder : List (Fin 12) := [0, 1, 2, 3, 4, 5, 6, 7, 8, 9, 10, 11]

/-- One inner round: the advance, then the twelve steps in order (R72, R76). -/
def innerRound (seed : Seed) (m : MixState) : MixState :=
  stepOrder.foldl (fun m i => mush seed i (rotOf i) m) (advanceRsum m)

/-- The fold after an outer round (R77). -/
def foldOut (m : MixState) : MixState :=
  { m with out := Vector.ofFn fun i : Fin 8 => m.out[i] ^^^ m.t[i.val + Config.foldOffset]'(by simp; omega) }

/-- One outer round: 16 inner rounds and a fold (R72). -/
def outerRound (seed : Seed) (m : MixState) : MixState :=
  foldOut ((innerRound seed)^[Config.innerRounds] m)

/-- MIX (R70): a total function of the block and the seed alone (R80). Irreducible, so that comparing terms never runs it. -/
@[irreducible] def mix (block : Block) (seed : Seed) : Lanes :=
  ((outerRound seed)^[Config.outerRounds] (mixSetup block seed)).out

/-- The position of the next step (R28, R84). -/
structure MixPos where
  loop : Fin 2
  rnd : Fin 16
  idx : Fin 12
deriving DecidableEq, Repr

/-- A MIX in progress, one step at a time; with no position it is complete (R84). -/
structure MixRun where
  mix : MixState
  pos : Option MixPos
deriving DecidableEq, Repr

/-- A MIX after its set-up: the next step is (0, 0, 0) (R84). -/
def mixStart (block : Block) (seed : Seed) : MixRun := ⟨mixSetup block seed, some ⟨0, 0, 0⟩⟩

/-- The events of one step at position `p`: the advance of the round sum before a step with index 0, then the step (R84). -/
def mixStepAt (seed : Seed) (p : MixPos) (m : MixState) : MixState :=
  mush seed p.idx (rotOf p.idx) (if p.idx = 0 then advanceRsum m else m)

/-- One step of a MIX in progress, with the fold after the last step of an outer round, and the move of the position (R84). -/
def mixAdvance (seed : Seed) (r : MixRun) : MixRun :=
  match r.pos with
  | none => r
  | some p =>
    let m := mixStepAt seed p r.mix
    if p.idx.val < 11 then ⟨m, some { p with idx := p.idx + 1 }⟩
    else if p.rnd.val < 15 then ⟨m, some { p with rnd := p.rnd + 1, idx := 0 }⟩
    else if p.loop = 0 then ⟨foldOut m, some ⟨1, 0, 0⟩⟩
    else ⟨foldOut m, none⟩

end Sys2Proof.Machine
end

