-- ==== Sys2Proof/Machine/Ops.lean ====
section
/-! DEFINITION. The named operations over the state: Reject (spec/60_exceptions.md R121), the internal operations of the
StreamingHasher (spec/41_streaming_hasher.md R91 to R94, R98), and the checks the commands share. -/

namespace Sys2Proof.Machine

/-- The outcome of an instruction. -/
abbrev Result := Host.Outcome State Fault Refusal

/-- Go on with `f` where the outcome is a next state. -/
def andThen (r : Result) (f : State → Result) : Result :=
  match r with
  | .next s => f s
  | .fault e => .fault e
  | .refused e => .refused e

/-- Taking the core's only exception, `raise Reject(code)` (R121, R124): the command ends, no state element changes, and the code is
signalled on `rej`. It saves nothing, vectors nowhere and has no return: the next command is taken normally. -/
def raiseReject (code : RejCode) (s : State) : State := { s with rej := code }

/-- A command is accepted: `rej` is 0 while it is taken (R121). -/
def accept (s : State) : State := { s with rej := .accepted }

/-- The phase check of INGEST, INGESTF and FINALIZE, before anything else (R95, R97, R98, R122, R123). -/
def inAbsorb (k : State → Result) (s : State) : Result :=
  match s.phase with
  | .absorb => k (accept s)
  | .uninit => .next (raiseReject .notInitialised s)
  | .done => .next (raiseReject .afterFinalize s)

/-- The precondition of PUT, `0 <= CURSOR <= 31` (R91): where it fails there is no `BUF[CURSOR]` to write. -/
def withRoom (f : State → State) (s : State) : Result :=
  if s.cursor.toNat < Config.bufBytes then .next (f s) else .fault .bufIndexOutOfRange

/-- `MemWrite(k, 1, v)`: one byte into the buffer (R8). There is no byte at an index of 32 or more; no caller gives one. -/
def memWrite (k : Nat) (v : Byte) (s : State) : State := { s with buf := s.buf.setIfInBounds k v }

/-- The counter plus one: a word is incremented only when the word below it has just wrapped to 0; the top word's carry is lost
(R93, D5). -/
def incCounter (ctr : Counter) : Counter :=
  let w0 := ctr[0] + 1
  if wrapped w0 then
    let w1 := ctr[1] + 1
    if wrapped w1 then
      let w2 := ctr[2] + 1
      if wrapped w2 then #v[w0, w1, w2, ctr[3] + 1]
      else #v[w0, w1, w2, ctr[3]]
    else #v[w0, w1, ctr[2], ctr[3]]
  else #v[w0, ctr[1], ctr[2], ctr[3]]

/-- CTRINC (R93). -/
def ctrInc (s : State) : State := { s with ctr := incCounter s.ctr }

/-- `OUT[0..7] <- MIX(block, SEED)` (R79, R92, R98). -/
def runMix (block : Block) (s : State) : State := { s with out := mix block s.seed }

/-- Eight independent sums modulo 2^32 (R94). -/
def addLanes (a b : Lanes) : Lanes := Vector.ofFn fun j : Fin 8 => a[j] + b[j]

/-- SUMACC (R94). -/
def sumAcc (s : State) : State := { s with sum := addLanes s.sum s.out }

/-- Set the cursor. -/
def setCursor (c : BitVec 6) (s : State) : State := { s with cursor := c }

/-- FLUSH (R92): cursor to 0, increment the counter, mix the block with the incremented counter, accumulate; in this order. The
buffer is not cleared (R52). -/
def flush (s : State) : State :=
  let s1 := ctrInc (setCursor 0 s)
  sumAcc (runMix (blockView s1.buf s1.ctr) s1)

/-- PUT (R91): store the byte at the cursor, advance the cursor, flush when it reaches 32. -/
def putByte (c : Byte) (s : State) : State :=
  let s1 := setCursor (s.cursor + 1) (memWrite s.cursor.toNat c s)
  if cursorFull s1.cursor then flush s1 else s1

/-- PUT of a byte of the message, under its precondition. -/
def storeByte (c : Byte) (s : State) : Result := withRoom (putByte c) s

/-- `while CURSOR != 0: PUT(0x00)` (R98), test first (D4); `n` bounds the number of bytes, of which 31 are enough (R101). -/
def padLoop : Nat → State → State
  | 0, s => s
  | n + 1, s => if cursorNonzero s.cursor then padLoop n (putByte Config.pad s) else s

/-- The end marker and the padding of FINALIZE: the flush of the last data block (R98, R101). -/
def closeStream (s : State) : State := padLoop Config.maxPadding (putByte Config.endMark s)

/-- The final MIX of FINALIZE and its digest (R98, R106): counter, buffer and digest sum stay as the last flush left them. -/
def emitDigest (s : State) : State :=
  let s1 := runMix (finalBlock s.sum) s
  { s1 with digest := serialise s1.out, phase := .done }

end Sys2Proof.Machine
end

