-- ==== Sys2Proof/Machine/Hasher.lean ====
section
/-! DEFINITION. The meanings of the four commands (spec/41_streaming_hasher.md). -/

namespace Sys2Proof.Machine

/-- INIT (R90): accepted in every phase; stores the Seed, zeroes `SUM`, `BUF`, `CTR` and `CURSOR`, enters `ABSORB`; writes neither `OUT`
nor `DIGEST` (R27, R30). -/
def execInit (seed : Seed) (s : State) : Result :=
  .next { accept s with
    seed := seed
    sum := Vector.replicate 8 0
    buf := Vector.replicate 32 0
    ctr := Vector.replicate 4 0
    cursor := 0
    phase := .absorb }

/-- INGEST (R95): every byte is stored unchanged; `Reject(2)` in `UNINIT`, `Reject(3)` in `DONE`. -/
def execIngest (byte : Byte) (s : State) : Result := inAbsorb (storeByte byte) s

/-- What INGESTF does with a byte once its phase is checked: nothing for a dropped byte, PUT for a kept one (R97). -/
def storeFiltered (byte : Byte) (s : State) : Result :=
  match filterByte byte with
  | .drop => .next s
  | .keep c => storeByte c s

/-- INGESTF (R97): as INGEST, each byte first filtered; the phase check comes before the filter. -/
def execIngestf (byte : Byte) (s : State) : Result := inAbsorb (storeFiltered byte) s

/-- FINALIZE (R98): end marker, padding and flush, final MIX, digest, `DONE`; `Reject(2)` in `UNINIT`, `Reject(3)` in `DONE`. -/
def execFinalize (s : State) : Result := inAbsorb (withRoom fun s => emitDigest (closeStream s)) s

end Sys2Proof.Machine
end

