-- ==== Sys2Proof/Machine/Dispatch.lean ====
section
/-! DEFINITION. One arm per constructor of `Instr`. -/

namespace Sys2Proof.Machine

def exec (i : Instr) (s : State) : Host.Outcome State Fault Refusal :=
  match i with
  | .init seed => Sys2Proof.Machine.execInit seed s
  | .ingest byte => Sys2Proof.Machine.execIngest byte s
  | .ingestf byte => Sys2Proof.Machine.execIngestf byte s
  | .finalize => Sys2Proof.Machine.execFinalize s

end Sys2Proof.Machine
end

