-- ==== Sys2Proof/Decode.lean ====
section
/-! DEFINITION. Decoding and encoding of commands. The decoder follows the masks and matches of spec/30_encoding.md rule R62, the
encoder the fields of R61, so that the two are written from two descriptions the spec gives. -/

namespace Sys2Proof

/-- Why a command word is reserved: the three groups of R64. Each is `Reject(1)` (R122). -/
inductive DecodeError where
  /-- `op` is 0x0 or 0x5..0xF. -/
  | reservedOpcode
  /-- `op` is in 0x1..0x4 and `mbz` is not zero. -/
  | mbzNotZero
  /-- INIT or FINALIZE with `byte` not zero. -/
  | byteNotZero
deriving DecidableEq, Repr

/-- The fields `op[15:12]`, `mbz[11:8]` and `byte[7:0]` of a command word (R61). -/
def fieldsOf (cw : CommandWord) : Fields :=
  { op := cw.extractLsb' 12 4, mbz := cw.extractLsb' 8 4, byte := cw.extractLsb' 0 8 }

/-- The byte operand of INGEST and INGESTF: `cw[7:0]` exactly as it stands (R63). -/
def byteOperand (cw : CommandWord) : Byte := cw.extractLsb' 0 8

/-- Which group of R64 a reserved word falls under, the first that holds. -/
def reservedGroup (f : Fields) : DecodeError :=
  if f.opKnown then (if f.mbzClear then .byteNotZero else .mbzNotZero) else .reservedOpcode

/-- The decoder: the opcode map of R62, row by row, and a refusal by name for every other word (R64). It reads no state: a word
decodes alike in every phase (R65). INIT takes its Seed from `seed_in` (R68). -/
def decode (c : Command) : Except DecodeError Instr :=
  if c.word &&& 0xFFFF = 0x1000 then .ok (.init c.seedIn)
  else if c.word &&& 0xFF00 = 0x2000 then .ok (.ingest (byteOperand c.word))
  else if c.word &&& 0xFF00 = 0x3000 then .ok (.ingestf (byteOperand c.word))
  else if c.word &&& 0xFFFF = 0x4000 then .ok .finalize
  else .error (reservedGroup (fieldsOf c.word))

/-- A command word put together from its fields (R61). -/
def wordOf (f : Fields) : CommandWord := f.op ++ f.mbz ++ f.byte

/-- What `seed_in` carries with an instruction: INIT's operand; the other commands do not read it, and the encoder gives them the
all-zero Seed (R68). -/
def seedOperand : Instr → Seed
  | .init seed => seed
  | .ingest _ => Vector.replicate 32 0
  | .ingestf _ => Vector.replicate 32 0
  | .finalize => Vector.replicate 32 0

/-- The encoder: the command the host presents for an instruction (R61, R62, R68). -/
def encode (i : Instr) : Command := { word := wordOf i.fields, seedIn := seedOperand i }

/-- The command laid out in the bits of a number: `cw` in bits 15..0 and `seed_in[k]` in bits 32k+47..32k+16 above it. Only the low
`nbits` bits are taken; every bit above them is zero. DESIGN CHOICE (log entry 6): the spec gives the Seed inputs no place in a word. -/
def Command.ofBits (nbits w : Nat) : Command :=
  let v := w % 2 ^ nbits
  { word := BitVec.ofNat 16 v
    seedIn := Vector.ofFn fun k : Fin 32 => BitVec.ofNat 32 (v / 2 ^ (16 + 32 * k.val)) }

/-- The instruction the decoder reads from the low `nbits` bits of `w`; none where it refuses. -/
def decodeTableWord (nbits w : Nat) : Option Instr :=
  match decode (Command.ofBits nbits w) with
  | .ok i => some i
  | .error _ => none

end Sys2Proof
end

