-- ==== Sys2Proof/Machine/Port.lean ====
section
/-! DEFINITION. The host's side of the core (spec/60_exceptions.md R133): what the host reads, what it sends, and what the core does
between commands (R132) and on `rst` (spec/70_reset_and_hazards.md R140). -/

namespace Sys2Proof.Machine

/-- What the host reads; no read changes anything (R45, R133). -/
structure HostView where
  status : BitVec 8
  digest : Option Digest
  cmdReady : Bool
  rej : BitVec 2
deriving DecidableEq, Repr

/-- `DIGEST` as the host may read it: a value only while `PHASE` is `DONE` (R30, R145). -/
def hostDigest (s : State) : Option Digest :=
  match s.phase with
  | .done => some s.digest
  | .uninit => none
  | .absorb => none

/-- The outputs. `cmd_ready` is low only inside a command (R61, R144), and a state stands between two commands. -/
def hostView (s : State) : HostView :=
  { status := s.status, digest := hostDigest s, cmdReady := true, rej := s.rej.code }

/-- The host sends further events. -/
def send (events : List HostEvent) (s : State) : State := { s with pending := s.pending ++ events }

/-- The head of what the host sends is taken. -/
def takeEvent (rest : List HostEvent) (s : State) : State := { s with pending := rest }

/-- Nothing is pending: the core idles and holds all its state (R132); no command is being taken, so `rej` signals no code (R121). -/
def idle (s : State) : State := accept s

/-- `rst` (R140): the state after reset, with what the host sends afterwards (log entry 5). -/
def resetEvent (rest : List HostEvent) : State := takeEvent rest State.reset

end Sys2Proof.Machine
end

