-- ==== Sys2Proof/Machine/Step.lean ====
section
/-! DEFINITION. One step of the machine: one event of the host, or idling. A command is decoded first; a reserved word is `Reject(1)` in
every phase (spec/60_exceptions.md R123), and a word that decodes is executed as one atomic transition (spec/00_scope.md R9). -/

namespace Sys2Proof.Machine

/-- What the core does with a command it takes (R61, R64, R123). -/
def runCommand (c : Command) (s : State) : Result :=
  match decode c with
  | .ok i => exec i s
  | .error _ => .next (raiseReject .reservedEncoding s)

/-- One step. -/
def step (s : State) : Host.Outcome State Fault Refusal :=
  match s.pending with
  | [] => .next (idle s)
  | .reset :: rest => .next (resetEvent rest)
  | .command c :: rest => runCommand c (takeEvent rest s)

/-- The command laid out in the low `nbits` bits of `w` is the next one the host presents (log entries 4 and 6). -/
def State.withFetchWord (s : State) (nbits w : Nat) : State :=
  { s with pending := .command (Command.ofBits nbits w) :: s.pending }

end Sys2Proof.Machine
end

