-- ==== Sys2Proof/Machine/Message.lean ====
section
/-! DEFINITION. Sequences of commands: what the document calls `ingest(bytes, n)`, `ingestFolded(bytes, n)` and one hashing operation
(spec/41_streaming_hasher.md R99, R104; spec/70_reset_and_hazards.md R150). -/

namespace Sys2Proof.Machine

/-- Instructions one after the other, stopping at the first that answers no next state (R48). -/
def execAll : List Instr → State → Result
  | [], s => .next s
  | i :: is, s => andThen (exec i s) (execAll is)

/-- `ingest(bytes, n)`: one INGEST a byte, in order (R99). -/
def ingestAll (m : List Byte) : List Instr := m.map .ingest

/-- `ingestFolded(bytes, n)`: one INGESTF a byte, in order (R99). -/
def ingestFoldedAll (m : List Byte) : List Instr := m.map .ingestf

/-- One run of the core over a message: INIT, the bytes, FINALIZE (R150). -/
def hashRun (seed : Seed) (m : List Byte) : List Instr :=
  .init seed :: (ingestAll m ++ [.finalize])

/-- The same run by the folding path. -/
def hashFoldedRun (seed : Seed) (m : List Byte) : List Instr :=
  .init seed :: (ingestFoldedAll m ++ [.finalize])

/-- The byte FILTER keeps, if it keeps one (R96). -/
def Filtered.toOption : Filtered → Option Byte
  | .drop => none
  | .keep c => some c

/-- The filtered text of a message: spaces and tabs removed, upper-case letters folded (R104). -/
def filterBytes (m : List Byte) : List Byte := m.filterMap fun c => (filterByte c).toOption

/-- The commands the host presents for a list of instructions. -/
def commandsOf (is : List Instr) : List HostEvent := is.map fun i => .command (encode i)

end Sys2Proof.Machine
end

