-- ==== Sys2Proof/Machine/Assembler.lean ====
section
/-! DEFINITION. The assembler of spec/30_encoding.md: its lines with the pseudo-instructions' expansions (R67), and its text (R66). It is
no part of the machine: it makes commands. Characters are compared by their ASCII codes (R66). -/

namespace Sys2Proof.Machine

/-- A line of assembly that stands for commands: the four commands (R66) and the four pseudo-instructions (R67). -/
inductive AsmLine where
  | init (seed : Seed)
  | ingest (byte : Byte)
  | ingestf (byte : Byte)
  | finalize
  | ingests (text : List Byte)
  | ingestfs (text : List Byte)
  | hash (text : List Byte)
  | hashf (text : List Byte)
deriving DecidableEq, Repr

/-- The commands a line stands for; HASH and HASHF use the all-zero Seed that a plain `INIT` stands for (R66, R67). -/
def AsmLine.expand : AsmLine → List Instr
  | .init seed => [.init seed]
  | .ingest b => [.ingest b]
  | .ingestf b => [.ingestf b]
  | .finalize => [.finalize]
  | .ingests t => ingestAll t
  | .ingestfs t => ingestFoldedAll t
  | .hash t => hashRun Config.seedValue t
  | .hashf t => hashFoldedRun Config.seedValue t

/-- A program: its lines' commands in order (R66). -/
def expandAll (lines : List AsmLine) : List Instr := lines.flatMap AsmLine.expand

/-- A blank between the parts of a line. DESIGN CHOICE (log entry 14): space or horizontal tab. -/
def isBlank (c : Char) : Bool := c.toNat == 0x20 || c.toNat == 0x09

/-- Leading blanks dropped. -/
def skipBlanks (cs : List Char) : List Char := cs.dropWhile isBlank

/-- Nothing but blanks before the end of the line or a comment, which `;` starts (R66). -/
def atLineEnd (cs : List Char) : Bool :=
  match skipBlanks cs with
  | [] => true
  | c :: _ => c.toNat == 0x3B

/-- A quoted character stands for its ASCII code (R66). -/
def asciiByte? (c : Char) : Option Byte :=
  if c.toNat < 128 then some (BitVec.ofNat 8 c.toNat) else none

/-- A hexadecimal digit. -/
def hexDigit? (c : Char) : Option Nat :=
  if 0x30 ≤ c.toNat && c.toNat ≤ 0x39 then some (c.toNat - 0x30)
  else if 0x41 ≤ c.toNat && c.toNat ≤ 0x46 then some (c.toNat - 0x37)
  else if 0x61 ≤ c.toNat && c.toNat ≤ 0x66 then some (c.toNat - 0x57)
  else none

/-- A byte operand, 0x00..0xFF in two hexadecimal digits or a quoted ASCII character, and what follows it (R66). -/
def byteLiteral? : List Char → Option (Byte × List Char)
  | '0' :: 'x' :: h :: l :: rest =>
    match hexDigit? h, hexDigit? l with
    | some a, some b => some (BitVec.ofNat 8 (16 * a + b), rest)
    | _, _ => none
  | q :: c :: q' :: rest =>
    if q.toNat == 0x27 && q'.toNat == 0x27 then (asciiByte? c).map fun b => (b, rest) else none
  | _ => none

/-- The bytes up to the closing double quote, and what follows it (R67). -/
def stringBody? : List Char → Option (List Byte × List Char)
  | [] => none
  | c :: rest =>
    if c.toNat == 0x22 then some ([], rest)
    else
      match asciiByte? c, stringBody? rest with
      | some b, some (bs, after) => some (b :: bs, after)
      | _, _ => none

/-- A string operand between double quotes (R67). -/
def stringLiteral? : List Char → Option (List Byte × List Char)
  | [] => none
  | c :: rest => if c.toNat == 0x22 then stringBody? rest else none

/-- INIT's operand: none, for the all-zero Seed, or `seed=<name>` of a constant the test bench defines (R66). -/
def seedLiteral? (names : List (List Char × Seed)) (cs : List Char) : Option (Seed × List Char) :=
  match cs with
  | 's' :: 'e' :: 'e' :: 'd' :: '=' :: rest =>
    let stops (c : Char) : Bool := isBlank c || c.toNat == 0x3B
    (names.lookup (rest.takeWhile fun c => !stops c)).map
      fun seed => (seed, rest.dropWhile fun c => !stops c)
  | _ => some (Config.seedValue, cs)

/-- A capital letter; mnemonics are in capitals (R66). -/
def isCapital (c : Char) : Bool := 0x41 ≤ c.toNat && c.toNat ≤ 0x5A

/-- The operand of the line whose mnemonic is given, and what follows it; none for an unknown mnemonic or a wrong operand. -/
def parseOperand (names : List (List Char × Seed)) (mnemonic operand : List Char) :
    Option (AsmLine × List Char) :=
  match mnemonic with
  | ['I', 'N', 'I', 'T'] => (seedLiteral? names operand).map fun r => (.init r.1, r.2)
  | ['I', 'N', 'G', 'E', 'S', 'T'] => (byteLiteral? operand).map fun r => (.ingest r.1, r.2)
  | ['I', 'N', 'G', 'E', 'S', 'T', 'F'] => (byteLiteral? operand).map fun r => (.ingestf r.1, r.2)
  | ['F', 'I', 'N', 'A', 'L', 'I', 'Z', 'E'] => some (.finalize, operand)
  | ['I', 'N', 'G', 'E', 'S', 'T', 'S'] => (stringLiteral? operand).map fun r => (.ingests r.1, r.2)
  | ['I', 'N', 'G', 'E', 'S', 'T', 'F', 'S'] => (stringLiteral? operand).map fun r => (.ingestfs r.1, r.2)
  | ['H', 'A', 'S', 'H'] => (stringLiteral? operand).map fun r => (.hash r.1, r.2)
  | ['H', 'A', 'S', 'H', 'F'] => (stringLiteral? operand).map fun r => (.hashf r.1, r.2)
  | _ => none

/-- A mnemonic is followed by a blank, a comment or the end of the line. -/
def separated (cs : List Char) : Bool :=
  match cs with
  | [] => true
  | c :: _ => isBlank c || c.toNat == 0x3B

/-- One line of text: `some none` for a line with no command, `none` for one that is no line of the assembler (R66). -/
def parseLine (names : List (List Char × Seed)) (line : List Char) : Option (Option AsmLine) :=
  if atLineEnd line then some none
  else
    let cs := skipBlanks line
    let rest := cs.dropWhile isCapital
    if separated rest then
      match parseOperand names (cs.takeWhile isCapital) (skipBlanks rest) with
      | some (l, after) => if atLineEnd after then some (some l) else none
      | none => none
    else none

/-- A program's text, one command a line (R66), as the instructions it stands for. -/
def assemble (names : List (List Char × Seed)) : List (List Char) → Option (List Instr)
  | [] => some []
  | line :: lines =>
    match parseLine names line, assemble names lines with
    | some (some l), some is => some (l.expand ++ is)
    | some none, some is => some is
    | _, _ => none

end Sys2Proof.Machine
end

