-- ==== Sys2Proof/Machine/Companion.lean ====
section
/-! DEFINITION. The two companion functions of spec/42_companion_functions.md. They are software around the core and outside its scope
(spec/00_scope.md R3): no instruction and no state depends on this file. -/

namespace Sys2Proof.Machine

/-- The cookie of a digest: each of the first 20 bytes mapped to 'a'..'p' by its low four bits (R116). -/
def cookie (d : Digest) : Vector Byte 20 := Vector.ofFn fun i : Fin 20 => 0x61 + (d[i.val] &&& 0x0F)

/-- hashAddress (R116): hash the text by the folding path under the all-zero Seed, on a core in state `s`, and take the cookie. -/
def hashAddress (text : List Byte) (s : State) : Option (Vector Byte 20) :=
  match execAll (hashFoldedRun Config.seedValue text) s with
  | .next t => (hostDigest t).map cookie
  | .fault _ => none
  | .refused _ => none

/-- The subscriber cookie: the caller puts `<` before the address (R117). -/
def subscriberCookie (address : List Byte) (s : State) : Option (Vector Byte 20) :=
  hashAddress (0x3C :: address) s

/-- The rolling hash of bucketOf: from 5381, `h = (h + (h << 5)) xor c` for each byte, modulo 2^32 (R118). -/
def bucketHash (text : List Byte) : Word :=
  text.foldl (fun h c => (h + (h <<< 5)) ^^^ c.setWidth 32) 5381

/-- The raw result of bucketOf, 0..52 (R118). -/
def bucketRaw (text : List Byte) : Nat := (bucketHash text).toNat % 53

/-- The byte emitted for a bucket, 64..116 (R118, C5). -/
def bucketOf (text : List Byte) : Byte := BitVec.ofNat 8 (64 + bucketRaw text)

/-- The bucket of a subscriber: the caller puts `T` before the address (R118). -/
def subscriberBucket (address : List Byte) : Byte := bucketOf (0x54 :: address)

end Sys2Proof.Machine
end

