-- ==== Sys2Proof/Safety.lean ====
section
/-! DEFINITION. The terms in which claims are stated: the invariant of every run, the state during a message (spec/10_state.md R34), and
the digest in closed form (spec/41_streaming_hasher.md R108). -/

namespace Sys2Proof.Machine

/-- `0 <= CURSOR <= 31` between commands (R25, R34). -/
abbrev CursorInRange (s : State) : Prop := s.cursor.toNat ≤ 31

/-- In `DONE` the cursor is 0 and the digest is the serialisation of the last output (R30, R107). -/
abbrev DigestMatchesOut (s : State) : Prop :=
  s.phase = .done → s.cursor = 0 ∧ s.digest = serialise s.out

/-- A code 2 stands only in `UNINIT`, a code 3 only in `DONE` (R122). -/
abbrev RejMatchesPhase (s : State) : Prop :=
  (s.rej = .notInitialised → s.phase = .uninit) ∧ (s.rej = .afterFinalize → s.phase = .done)

/-- The invariant of the machine, kept by every step. -/
abbrev Inv (s : State) : Prop := CursorInRange s ∧ DigestMatchesOut s ∧ RejMatchesPhase s

/-- The two states agree on every state element of the spec (the tuple of spec/10_state.md); the output `rej` and what the host has yet
to send are no state elements. -/
abbrev SameElements (s t : State) : Prop :=
  s.seed = t.seed ∧ s.buf = t.buf ∧ s.ctr = t.ctr ∧ s.cursor = t.cursor ∧ s.sum = t.sum ∧
    s.out = t.out ∧ s.phase = t.phase ∧ s.digest = t.digest

/-- The counter words of block number `r` (R108). -/
def counterWords (r : Nat) : Counter :=
  #v[BitVec.ofNat 32 r, BitVec.ofNat 32 (r / 2 ^ 32), BitVec.ofNat 32 (r / 2 ^ 64), BitVec.ofNat 32 (r / 2 ^ 96)]

/-- Data word `j` of block number `r` of a byte sequence, blocks counted from 1 (R108). -/
def streamWord (p : List Byte) (r : Nat) (j : Fin 8) : Word :=
  let k := 32 * (r - 1) + 4 * j.val
  leWord (p.getD k 0) (p.getD (k + 1) 0) (p.getD (k + 2) 0) (p.getD (k + 3) 0)

/-- Block number `r` of a byte sequence with its counter words (R108). -/
def streamBlock (p : List Byte) (r : Nat) : Block :=
  mkBlock (Vector.ofFn fun j : Fin 8 => streamWord p r j) (counterWords r)

/-- The sums modulo 2^32 of the mixer outputs of the first `q` blocks (R34(d), R108). -/
def streamSum (seed : Seed) (p : List Byte) (q : Nat) : Lanes :=
  Vector.ofFn fun j : Fin 8 => ((List.range q).map fun r => (mix (streamBlock p (r + 1)) seed)[j]).sum

/-- The padded form of a message: the end marker, then zero bytes to the block boundary (R101, R108). -/
def padded (m : List Byte) : List Byte :=
  m ++ [Config.endMark] ++ List.replicate (31 - m.length % 32) Config.pad

/-- The number of blocks of a padded message (R102, R108). -/
def blockCount (m : List Byte) : Nat := m.length / 32 + 1

/-- The digest as a function of the Seed and the message (R108). -/
def digestOf (seed : Seed) (m : List Byte) : Digest :=
  serialise (mix (finalBlock (streamSum seed (padded m) (blockCount m))) seed)

/-- What R34 says of a state in `ABSORB` after INIT with `seed` and the accepted bytes `m`. -/
structure StreamState (seed : Seed) (m : List Byte) (s : State) : Prop where
  inAbsorbPhase : s.phase = .absorb
  seedHeld : s.seed = seed
  cursor : s.cursor.toNat = m.length % 32
  buffered : ∀ k : Fin 32, k.val < m.length % 32 → bufByte s.buf k = m.getD (32 * (m.length / 32) + k.val) 0
  counter : s.ctr = counterWords (m.length / 32)
  sums : s.sum = streamSum seed m (m.length / 32)

/-- INGEST and INGESTF: the commands that bring bytes. -/
def isStore : Instr → Bool
  | .init _ => false
  | .ingest _ => true
  | .ingestf _ => true
  | .finalize => false

/-- The byte a command brings to the buffer, if it brings one (R12, R97). -/
def reaches : Instr → Option Byte
  | .init _ => none
  | .ingest b => some b
  | .ingestf b => (filterByte b).toOption
  | .finalize => none

/-- Two states that later commands of a message cannot tell apart: equal but for the buffer bytes at and above the cursor, `OUT`,
`DIGEST`, `rej` and what is pending (R52). -/
abbrev SameStream (s t : State) : Prop :=
  s.phase = t.phase ∧ s.seed = t.seed ∧ s.ctr = t.ctr ∧ s.cursor = t.cursor ∧ s.sum = t.sum ∧
    ∀ k : Fin 32, k.val < s.cursor.toNat → bufByte s.buf k = bufByte t.buf k

end Sys2Proof.Machine
end

