-- ==== Sys2Proof/Certificates/Slice0/Obligations.lean ====
section
/-! DEFINITION. The statements of this row. `OBLIGATIONS.json` says of each which rule of spec/ it formalises. -/

open Sys2Proof Sys2Proof.Machine

/-! ## Reset, the step and the host's view -/

/-- R140, log entries 1 and 5: after `rst`, from any state, `PHASE` is `UNINIT`, `STATUS` is 0, `rej` is 0 and the digest has no value. The state itself is
`State.reset`, whose other elements are the model's choice (log entries 1 and 5): nothing is said of them. -/
def Obligations.ResetEntersUninit : Prop :=
  State.reset.phase = .uninit ∧ State.reset.pending = [] ∧
    ∀ (s : State) (rest : List HostEvent), s.pending = .reset :: rest →
      ∃ t, step s = .next t ∧ t.phase = .uninit ∧ t.pending = rest ∧
        hostView t = { status := 0, digest := none, cmdReady := true, rej := 0 }

/-- The state after reset meets the invariant. That its cursor is in range rests on the zero of log entry 1, the model's choice: R140 leaves
`CURSOR` unspecified at reset. -/
def Obligations.ResetMeetsInv : Prop := Inv State.reset

/-- R132: with nothing to do the core holds every state element. That `rej` then signals no code is the model's reading (log entry 3). -/
def Obligations.IdleStepHoldsState : Prop :=
  ∀ s : State, s.pending = [] → step s = .next { s with rej := .accepted }

/-- R9, R61: a command word that decodes is taken off what is pending (the model's own field, log entry 4) and executed whole. -/
def Obligations.StepRunsDecodedCommand : Prop :=
  ∀ (s : State) (c : Command) (rest : List HostEvent) (i : Instr),
    s.pending = .command c :: rest → decode c = .ok i → step s = exec i { s with pending := rest }

/-- R33, R29, R30, R122: what the host reads, code by code; that a digest outside `DONE` is no value is the model's reading of R30 (log
entry 8), and that `rej` can be read from a state is log entry 3. -/
def Obligations.HostReadsPhaseAndDigest : Prop :=
  ∀ s : State,
    (hostView s).status.extractLsb' 0 2 = s.phase.code ∧ (hostView s).status.extractLsb' 2 6 = 0 ∧
      (hostView s).status ≠ 3 ∧ (hostView s).rej = s.rej.code ∧
      (s.phase = .uninit → (hostView s).status = 0) ∧ (s.phase = .absorb → (hostView s).status = 1) ∧
      (s.phase = .done → (hostView s).status = 2) ∧
      (s.rej = .accepted → (hostView s).rej = 0) ∧ (s.rej = .reservedEncoding → (hostView s).rej = 1) ∧
      (s.rej = .notInitialised → (hostView s).rej = 2) ∧ (s.rej = .afterFinalize → (hostView s).rej = 3) ∧
      (s.phase = .done → (hostView s).digest = some s.digest) ∧
      (s.phase ≠ .done → (hostView s).digest = none)

/-! ## Decoding and encoding -/

/-- Words of the opcode map and reserved words beside them (spec/95_test_vectors.md section 2.6). -/
def Obligations.DecodeOfListedWords : Prop :=
  decode ⟨0x1000, Config.seedValue⟩ = .ok (.init Config.seedValue) ∧
    decode ⟨0x2061, Config.seedValue⟩ = .ok (.ingest 0x61) ∧
    decode ⟨0x20ff, Config.seedValue⟩ = .ok (.ingest 0xFF) ∧
    decode ⟨0x3046, Config.seedValue⟩ = .ok (.ingestf 0x46) ∧
    decode ⟨0x4000, Config.seedValue⟩ = .ok .finalize ∧
    decode ⟨0x2161, Config.seedValue⟩ = .error .mbzNotZero ∧
    decode ⟨0x4001, Config.seedValue⟩ = .error .byteNotZero ∧
    decode ⟨0x5000, Config.seedValue⟩ = .error .reservedOpcode ∧
    decode ⟨0x0000, Config.seedValue⟩ = .error .reservedOpcode

/-- R62: a word selects an instruction when `(cw and mask) = match`, row by row; each word selects at most one. -/
def Obligations.DecodeFollowsOpcodeMap : Prop :=
  ∀ c : Command,
    (∀ seed, decode c = .ok (.init seed) ↔ c.word &&& 0xFFFF = 0x1000 ∧ seed = c.seedIn) ∧
    (∀ b, decode c = .ok (.ingest b) ↔ c.word &&& 0xFF00 = 0x2000 ∧ b = c.word.extractLsb' 0 8) ∧
    (∀ b, decode c = .ok (.ingestf b) ↔ c.word &&& 0xFF00 = 0x3000 ∧ b = c.word.extractLsb' 0 8) ∧
    (decode c = .ok .finalize ↔ c.word &&& 0xFFFF = 0x4000)

/-- Decoding the encoding of any instruction gives it back, with every operand at every value. -/
def Obligations.DecodeEncodeRoundTrip : Prop := ∀ i : Instr, decode (encode i) = .ok i

/-- Encoding what a word decodes to gives the word back, and INIT's operand is what stood on `seed_in`. -/
def Obligations.EncodeDecodeRoundTrip : Prop :=
  ∀ (c : Command) (i : Instr), decode c = .ok i →
    (encode i).word = c.word ∧ ∀ seed, i = .init seed → c.seedIn = seed

/-- R64: the words of the three groups, 65022 of them, are the reserved ones; each is rejected with code 1 in every phase and nothing
else changes. That the model takes this effect of the hardware, where R64 would have it refuse, is its choice (log entry 2). -/
def Obligations.ReservedWordsAreRejected : Prop :=
  (∀ (s : State) (c : Command) (rest : List HostEvent), s.pending = .command c :: rest →
    (c.word.extractLsb' 12 4 = 0 ∨ 5 ≤ (c.word.extractLsb' 12 4).toNat ∨ c.word.extractLsb' 8 4 ≠ 0 ∨
      ((c.word.extractLsb' 12 4 = 1 ∨ c.word.extractLsb' 12 4 = 4) ∧ c.word.extractLsb' 0 8 ≠ 0)) →
    ∃ t, step s = .next t ∧ t = { s with pending := rest, rej := .reservedEncoding } ∧ (hostView t).rej = 1) ∧
  ((List.range 65536).filter fun w => decodeTableWord 16 w == none).length = 65022

/-! ## INIT -/

/-- R90: INIT completes in every state and has exactly this effect; a second INIT with the same Seed changes nothing more, and after any
two histories the states agree but for `OUT` and `DIGEST`. `rej` and what is pending are no state elements (log entries 3 and 4). -/
def Obligations.InitResult : Prop :=
  ∀ (seed : Seed) (s : State), ∃ t, exec (.init seed) s = .next t ∧
    t.seed = seed ∧ (∀ j : Fin 8, t.sum[j] = 0) ∧ (∀ k : Fin 32, bufByte t.buf k = 0) ∧
    (∀ k : Fin 4, t.ctr[k] = 0) ∧ t.cursor = 0 ∧ t.phase = .absorb ∧ t.status = 1 ∧
    t.out = s.out ∧ t.digest = s.digest ∧ t.rej = .accepted ∧ t.pending = s.pending ∧
    exec (.init seed) t = .next t ∧
    ∀ s' : State, exec (.init seed) s' = .next { t with out := s'.out, digest := s'.digest, pending := s'.pending }

/-! ## INGEST -/

/-- R91, R95, below a full buffer: the byte goes to `BUF[CURSOR]`, the cursor advances, every other byte and element is unchanged. -/
def Obligations.IngestStoresByte : Prop :=
  ∀ (b : Byte) (s : State), s.phase = .absorb → s.cursor.toNat < 31 →
    ∃ t, exec (.ingest b) s = .next t ∧
      (∀ k : Fin 32, k.val = s.cursor.toNat → bufByte t.buf k = b) ∧
      (∀ k : Fin 32, k.val ≠ s.cursor.toNat → bufByte t.buf k = bufByte s.buf k) ∧
      t.cursor.toNat = s.cursor.toNat + 1 ∧ t.seed = s.seed ∧ t.ctr = s.ctr ∧ t.sum = s.sum ∧
      t.out = s.out ∧ t.phase = s.phase ∧ t.digest = s.digest ∧ t.rej = .accepted ∧ t.pending = s.pending

/-- R91, R92, R95, the byte that fills the buffer: it goes to `BUF[31]`, the cursor returns to 0, the counter counts one block, the block
of the new buffer and the new counter is mixed, and the output is added into the digest sum lane by lane. -/
def Obligations.IngestFlushesFullBlock : Prop :=
  ∀ (b : Byte) (s : State), s.phase = .absorb → s.cursor = 31 →
    ∃ t, exec (.ingest b) s = .next t ∧
      (∀ k : Fin 32, k.val = 31 → bufByte t.buf k = b) ∧
      (∀ k : Fin 32, k.val ≠ 31 → bufByte t.buf k = bufByte s.buf k) ∧
      t.cursor = 0 ∧ ctrValue t.ctr = (ctrValue s.ctr + 1) % 2 ^ 128 ∧
      t.out = mix (blockView t.buf t.ctr) s.seed ∧ (∀ j : Fin 8, t.sum[j] = s.sum[j] + t.out[j]) ∧
      t.seed = s.seed ∧ t.phase = s.phase ∧ t.digest = s.digest ∧ t.rej = .accepted ∧ t.pending = s.pending

/-! ## INGESTF -/

/-- R96: FILTER drops two bytes, folds 26, keeps the others; kept bytes are fixed by it. -/
def Obligations.FilterDropsAndFolds : Prop :=
  (∀ c : Byte, filterByte c =
    if c = 0x20 ∨ c = 0x09 then .drop
    else if 0x41 ≤ c ∧ c ≤ 0x5A then .keep (c + 0x20) else .keep c) ∧
  (∀ c c' : Byte, filterByte c = .keep c' → filterByte c' = .keep c') ∧
  ((List.range 256).filter fun n => filterByte (BitVec.ofNat 8 n) == .drop).length = 2 ∧
  ((List.range 256).filter fun n => filterByte (BitVec.ofNat 8 n) == .keep (BitVec.ofNat 8 n)).length = 228

/-- R97: INGESTF of a dropped byte changes no state element; of another byte it is INGEST of the byte or of its lower-case letter. -/
def Obligations.IngestfFiltersByte : Prop :=
  ∀ (b : Byte) (s : State), s.phase = .absorb → s.cursor.toNat ≤ 31 →
    ∃ t, exec (.ingestf b) s = .next t ∧ t.rej = .accepted ∧ t.pending = s.pending ∧
      if b = 0x20 ∨ b = 0x09 then SameElements t s
      else exec (.ingest (if 0x41 ≤ b ∧ b ≤ 0x5A then b + 0x20 else b)) s = .next t

/-! ## FINALIZE -/

/-- R98, R101, R106, R107: the pending bytes are followed by the end marker and zeros, one block is flushed, and the digest is the
serialised output of one more MIX, of the digest sum and four zero words; the rest stays as that flush left it. -/
def Obligations.FinalizeResult : Prop :=
  ∀ s : State, s.phase = .absorb → s.cursor.toNat ≤ 31 →
    ∃ t, exec .finalize s = .next t ∧
      (∀ k : Fin 32, k.val < s.cursor.toNat → bufByte t.buf k = bufByte s.buf k) ∧
      (∀ k : Fin 32, k.val = s.cursor.toNat → bufByte t.buf k = 0x2E) ∧
      (∀ k : Fin 32, s.cursor.toNat < k.val → bufByte t.buf k = 0x00) ∧
      ctrValue t.ctr = (ctrValue s.ctr + 1) % 2 ^ 128 ∧
      (∀ j : Fin 8, t.sum[j] = s.sum[j] + (mix (blockView t.buf t.ctr) s.seed)[j]) ∧
      t.out = mix (finalBlock t.sum) s.seed ∧
      (∀ (j : Fin 8) (k : Fin 4), t.digest[4 * j.val + k.val] = t.out[j].extractLsb' (8 * k.val) 8) ∧
      t.cursor = 0 ∧ t.phase = .done ∧ t.status = 2 ∧ hostDigest t = some t.digest ∧
      t.seed = s.seed ∧ t.rej = .accepted ∧ t.pending = s.pending

/-- R107, R145: from `DONE` every step but `rst` and an INIT keeps the digest and every other state element. That a rejected command is such
a step is the model's choice (log entry 2). -/
def Obligations.DigestHeldUntilInit : Prop :=
  ∀ s t : State, s.phase = .done → step s = .next t →
    (∀ rest, s.pending ≠ .reset :: rest) →
    (∀ c rest seed, s.pending = .command c :: rest → decode c ≠ .ok (.init seed)) →
    SameElements t s ∧ hostDigest t = some s.digest

/-! ## Reject -/

/-- R121, R122: outside `ABSORB` the three commands are rejected by phase, and nothing but `rej` changes: the hardware's effect, which R121
lets a model take (log entry 2). -/
def Obligations.CommandsOutsideAbsorbAreRejected : Prop :=
  ∀ (b : Byte) (s : State) (i : Instr), i = .ingest b ∨ i = .ingestf b ∨ i = .finalize →
    (s.phase = .uninit → ∃ t, exec i s = .next t ∧ t = { s with rej := .notInitialised } ∧ (hostView t).rej = 2) ∧
    (s.phase = .done → ∃ t, exec i s = .next t ∧ t = { s with rej := .afterFinalize } ∧ (hostView t).rej = 3)

/-- R122, R123: which code a command taken from the host is answered with, in every phase (log entries 2 and 3). -/
def Obligations.RejectCodesAreComplete : Prop :=
  ∀ (s t : State) (c : Command) (rest : List HostEvent), s.pending = .command c :: rest → step s = .next t →
    ((hostView t).rej = 1 ↔ ∃ e, decode c = .error e) ∧
    ((hostView t).rej = 2 ↔ s.phase = .uninit ∧ ∃ i, decode c = .ok i ∧ ∀ seed, i ≠ .init seed) ∧
    ((hostView t).rej = 3 ↔ s.phase = .done ∧ ∃ i, decode c = .ok i ∧ ∀ seed, i ≠ .init seed)

/-- R121, R124: a step that signals a code changes no state element; the next command is then taken normally (log entries 2 and 3). -/
def Obligations.RejectChangesNoElement : Prop :=
  ∀ s t : State, step s = .next t → t.rej ≠ .accepted →
    SameElements t s ∧ ∃ e, s.pending = e :: t.pending

/-! ## The whole machine -/

/-- Every step keeps the invariant, from every state that has it. After `rst` the cursor is in range by the zero of log entries 1 and 5, the
model's choice (R140 leaves `CURSOR` unspecified); the clause on reject codes speaks of the model's field `rej` (log entries 2 and 3). -/
def Obligations.StepKeepsInv : Prop := ∀ s t : State, Inv s → step s = .next t → Inv t

/-- R11, R120: with the cursor in its range no step faults or refuses, whatever the host sends. That a rejected command is no refusal of the
model, where R64, R121, U1, U2 and U5 would have one, is its choice (log entry 2); that an idle core takes a step is log entry 4. -/
def Obligations.StepNeverStops : Prop := ∀ s : State, CursorInRange s → ∃ t, step s = .next t

/-- The model's one fault (log entry 7): a command other than INIT, in `ABSORB`, with the cursor beyond the buffer; and no instruction is refused. -/
def Obligations.FaultOnlyBeyondBuffer : Prop :=
  ∀ (i : Instr) (s : State),
    (∀ r, exec i s = .fault r → s.phase = .absorb ∧ 32 ≤ s.cursor.toNat ∧ ∀ seed, i ≠ .init seed) ∧
    (∀ r, exec i s ≠ .refused r)

/-- R20: no command but INIT changes the Seed. -/
def Obligations.SeedChangedOnlyByInit : Prop :=
  ∀ (i : Instr) (s t : State), exec i s = .next t → (∀ seed, i ≠ .init seed) → t.seed = s.seed

/-- R23, R34: the counter stays, counts one block, or is zeroed by INIT; it is never decremented. -/
def Obligations.CounterCountsOneBlock : Prop :=
  ∀ (i : Instr) (s t : State), exec i s = .next t →
    t.ctr = s.ctr ∨ ctrValue t.ctr = (ctrValue s.ctr + 1) % 2 ^ 128 ∨ (∃ seed, i = .init seed) ∧ ctrValue t.ctr = 0

/-- R29, R31: `PHASE` moves only by `rst`, by INIT, and by FINALIZE in `ABSORB`. -/
def Obligations.PhaseMovesOnlySo : Prop :=
  ∀ s t : State, step s = .next t → t.phase ≠ s.phase →
    (∃ rest, s.pending = .reset :: rest ∧ t.phase = .uninit) ∨
    (∃ c rest seed, s.pending = .command c :: rest ∧ decode c = .ok (.init seed) ∧ t.phase = .absorb) ∨
    (∃ c rest, s.pending = .command c :: rest ∧ decode c = .ok .finalize ∧ s.phase = .absorb ∧ t.phase = .done)

/-! ## Words, bytes, counter and digest sum -/

/-- R6: bit `k` of `x` becomes bit `(k + b) mod 32` of `rotl(x, b)`. -/
def Obligations.RotlMovesBits : Prop :=
  ∀ (x : Word) (b k : Nat), 0 < b → b < 32 → k < 32 →
    (rotl x b).getLsbD ((k + b) % 32) = x.getLsbD k

/-- R7: the two conversions between bytes and words. -/
def Obligations.LittleEndianConversions : Prop :=
  (∀ b0 b1 b2 b3 : Byte,
    (leWord b0 b1 b2 b3).toNat = b0.toNat + 2 ^ 8 * b1.toNat + 2 ^ 16 * b2.toNat + 2 ^ 24 * b3.toNat) ∧
  (∀ (w : Word) (k n : Nat), k < 4 → n < 8 → (leByte w k).getLsbD n = w.getLsbD (8 * k + n))

/-- R22, R41: the byte at buffer index `4j + k` is byte `k` of data word `j`, and the block is the eight data words followed by the
four counter words (R24). -/
def Obligations.BlockViewIsLittleEndian : Prop :=
  ∀ (buf : Buffer) (ctr : Counter),
    (∀ (j : Fin 8) (k : Fin 4), leByte (blockView buf ctr)[j.val] k.val = bufByte buf ⟨4 * j.val + k.val, by omega⟩) ∧
    (∀ k : Fin 4, (blockView buf ctr)[8 + k.val] = ctr[k])

/-- R42: the digest bytes are the output words' bytes in little-endian order, and the digest determines the output words. -/
def Obligations.SerialiseIsLittleEndian : Prop :=
  (∀ (o : Lanes) (j : Fin 8) (k : Fin 4), (serialise o)[4 * j.val + k.val] = o[j].extractLsb' (8 * k.val) 8) ∧
  (∀ o o' : Lanes, serialise o = serialise o' → o = o')

/-- R93: CTRINC word by word, and as one 128-bit number. -/
def Obligations.CounterIncrementCarries : Prop :=
  ∀ s : State,
    (ctrInc s).ctr[0] = s.ctr[0] + 1 ∧
    (ctrInc s).ctr[1] = (if s.ctr[0] = 0xFFFFFFFF then s.ctr[1] + 1 else s.ctr[1]) ∧
    (ctrInc s).ctr[2] =
      (if s.ctr[0] = 0xFFFFFFFF ∧ s.ctr[1] = 0xFFFFFFFF then s.ctr[2] + 1 else s.ctr[2]) ∧
    (ctrInc s).ctr[3] =
      (if s.ctr[0] = 0xFFFFFFFF ∧ s.ctr[1] = 0xFFFFFFFF ∧ s.ctr[2] = 0xFFFFFFFF then s.ctr[3] + 1 else s.ctr[3]) ∧
    ctrValue (ctrInc s).ctr = (ctrValue s.ctr + 1) % 2 ^ 128 ∧
    ctrInc s = { s with ctr := (ctrInc s).ctr }

/-- R94: eight independent sums modulo 2^32, and nothing else changes. -/
def Obligations.SumLanesWrapIndependently : Prop :=
  ∀ s : State,
    (∀ j : Fin 8, (sumAcc s).sum[j].toNat = (s.sum[j].toNat + s.out[j].toNat) % 2 ^ 32) ∧
    sumAcc s = { s with sum := (sumAcc s).sum }

/-! ## The mixer -/

/-- R71: the set-up of a MIX. -/
def Obligations.MixSetupWhitens : Prop :=
  ∀ (block : Block) (seed : Seed),
    (∀ i : Fin 12, (mixSetup block seed).t[i] = block[i] ^^^ seed[12 + i.val]) ∧
    (∀ i : Fin 8, (mixSetup block seed).out[i] = seed[24 + i.val]) ∧
    (mixSetup block seed).x = block[11] ^^^ seed[23] ∧ (mixSetup block seed).rsum = 0

/-- R74, R75: one step writes one working word and the accumulator, both with the same value, from the old values; the grouping is that of
C2. A MIX takes its steps with the rotate amounts 5, 7, 9, 13 by index, after adding 0x9e3779b9 to the round sum before index 0: step by
step (R84), and in an inner round, whose twelve steps run in ascending order (R73, R76). -/
def Obligations.MushAddsKeyedRotation : Prop :=
  (∀ (seed : Seed) (i : Fin 12) (b : Nat) (m : MixState),
    let n := m.t[i] + (((m.x ^^^ seed[i.val]) + m.rsum) ^^^ rotl m.x b)
    (mush seed i b m).t[i] = n ∧ (mush seed i b m).x = n ∧
      (∀ j : Fin 12, j ≠ i → (mush seed i b m).t[j] = m.t[j]) ∧
      (mush seed i b m).rsum = m.rsum ∧ (mush seed i b m).out = m.out) ∧
  (∀ (seed : Seed) (p : MixPos) (m : MixState),
    let b := if p.idx.val % 4 = 0 then 5 else if p.idx.val % 4 = 1 then 7 else if p.idx.val % 4 = 2 then 9 else 13
    let m' := mush seed p.idx b (if p.idx = 0 then { m with rsum := m.rsum + 0x9e3779b9 } else m)
    (mixAdvance seed ⟨m, some p⟩).mix = if p.idx = 11 ∧ p.rnd = 15 then foldOut m' else m') ∧
  (∀ (seed : Seed) (m : MixState), innerRound seed m =
    ([(0, 5), (1, 7), (2, 9), (3, 13), (4, 5), (5, 7), (6, 9), (7, 13), (8, 5), (9, 7), (10, 9), (11, 13)] :
      List (Fin 12 × Nat)).foldl (fun m p => mush seed p.1 p.2 m) { m with rsum := m.rsum + 0x9e3779b9 })

/-- R77, R79: the result is the output start exclusive-ored with the working words 4 to 11 after each of the two outer rounds, the working
words running on from inner round to inner round. -/
def Obligations.MixResultIsTwoFolds : Prop :=
  ∀ (block : Block) (seed : Seed) (i : Fin 8),
    (mix block seed)[i] =
      seed[24 + i.val] ^^^ ((innerRound seed)^[16] (mixSetup block seed)).t[i.val + 4] ^^^
        ((innerRound seed)^[32] (mixSetup block seed)).t[i.val + 4]

/-- R81: exclusive-or on the output-start words of the Seed passes through to the result. -/
def Obligations.MixOutputSeedLaw : Prop :=
  ∀ (block : Block) (seed seed' : Seed) (d : Lanes),
    (∀ k : Fin 24, seed'[k.val] = seed[k.val]) →
    (∀ i : Fin 8, seed'[24 + i.val] = seed[24 + i.val] ^^^ d[i]) →
    ∀ i : Fin 8, (mix block seed')[i] = (mix block seed)[i] ^^^ d[i]

/-- R82: MIX sees the block and the whitening words only through their exclusive-or. -/
def Obligations.MixWhiteningLaw : Prop :=
  ∀ (block block' : Block) (seed seed' : Seed),
    (∀ i : Fin 12, block[i] ^^^ seed[12 + i.val] = block'[i] ^^^ seed'[12 + i.val]) →
    (∀ k : Fin 32, k.val < 12 ∨ 24 ≤ k.val → seed[k] = seed'[k]) →
    mix block seed = mix block' seed'

/-- R83, R84: MIX run step by step takes its positions in order, is complete after exactly 384 steps, and gives what MIX gives. -/
def Obligations.SteppedMixRefinesMix : Prop :=
  ∀ (block : Block) (seed : Seed),
    (∀ n, n < 384 → ∃ p, ((mixAdvance seed)^[n] (mixStart block seed)).pos = some p ∧
      p.loop.val = n / 192 ∧ p.rnd.val = n / 12 % 16 ∧ p.idx.val = n % 12) ∧
    (∀ n, 384 ≤ n → (mixAdvance seed)^[n] (mixStart block seed) =
      ⟨(outerRound seed)^[2] (mixSetup block seed), none⟩) ∧
    ((mixAdvance seed)^[384] (mixStart block seed)).mix.out = mix block seed

/-- R85: the round sum in inner round `n / 12` is that many times DELTA and once more, whatever the operands. -/
def Obligations.RoundSumIsMultipleOfDelta : Prop :=
  ∀ (block : Block) (seed : Seed) (n : Nat), n < 384 →
    ((mixAdvance seed)^[n + 1] (mixStart block seed)).mix.rsum = BitVec.ofNat 32 ((n / 12 + 1) * 0x9e3779b9)

/-- R86: after the set-up and after every step the accumulator equals the working word written last. -/
def Obligations.AccumulatorIsLastWord : Prop :=
  ∀ (block : Block) (seed : Seed) (n : Nat), n ≤ 384 →
    ((mixAdvance seed)^[n] (mixStart block seed)).mix.x =
      ((mixAdvance seed)^[n] (mixStart block seed)).mix.t[(n + 11) % 12]'(Nat.mod_lt _ (by decide))

/-! ## Messages -/

/-- R34, R90: INIT opens the empty message. -/
def Obligations.InitOpensStream : Prop :=
  ∀ (seed : Seed) (s : State), ∃ t, exec (.init seed) s = .next t ∧ StreamState seed [] t

/-- R34, R41, R91 to R94: each INGEST keeps what R34 says of the state, for the message with its byte at the end. -/
def Obligations.IngestExtendsStream : Prop :=
  ∀ (seed : Seed) (m : List Byte) (b : Byte) (s : State), StreamState seed m s →
    ∃ t, exec (.ingest b) s = .next t ∧ StreamState seed (m ++ [b]) t ∧
      ctrValue t.ctr = ((m ++ [b]).length / 32) % 2 ^ 128

/-- R97, R104: the same for INGESTF and the filtered message. -/
def Obligations.IngestfExtendsStream : Prop :=
  ∀ (seed : Seed) (m : List Byte) (b : Byte) (s : State), StreamState seed (filterBytes m) s →
    ∃ t, exec (.ingestf b) s = .next t ∧ StreamState seed (filterBytes (m ++ [b])) t

/-- R108: INIT, the bytes and FINALIZE, from any state, give the digest of the closed form. -/
def Obligations.RunComputesClosedForm : Prop :=
  ∀ (seed : Seed) (m : List Byte) (s : State),
    ∃ t, execAll (hashRun seed m) s = .next t ∧ t.phase = .done ∧ t.cursor = 0 ∧ t.seed = seed ∧
      ctrValue t.ctr = (m.length / 32 + 1) % 2 ^ 128 ∧ hostDigest t = some (digestOf seed m)

/-- R133, R150: the same at the command port, command word by command word, one step each (log entries 3, 4 and 12). -/
def Obligations.CommandPortRunComputesDigest : Prop :=
  ∀ (seed : Seed) (m : List Byte) (s : State) (rest : List HostEvent),
    ∃ t, Sys2Proof.core.run (m.length + 2) { s with pending := commandsOf (hashRun seed m) ++ rest } = .next t ∧
      hostView t = { status := 2, digest := some (digestOf seed m), cmdReady := true, rej := 0 } ∧ t.pending = rest

/-- R12: the digest is a function of INIT's Seed and of the bytes that reach the buffer, and of nothing else: not of what the instance did
before, nor of which of the two commands brought a byte. -/
def Obligations.DigestDependsOnReachedBytes : Prop :=
  ∀ (seed : Seed) (is is' : List Instr) (s s' : State),
    (∀ i ∈ is, isStore i = true) → (∀ i ∈ is', isStore i = true) →
    is.filterMap reaches = is'.filterMap reaches →
    ∃ t t', execAll (.init seed :: (is ++ [.finalize])) s = .next t ∧
      execAll (.init seed :: (is' ++ [.finalize])) s' = .next t' ∧
      hostDigest t = hostDigest t' ∧ hostDigest t = some (digestOf seed (is.filterMap reaches))

/-- R52: buffer bytes at and above the cursor, and the old `OUT` and `DIGEST`, have no influence on the digest. -/
def Obligations.StaleBytesAreNeverRead : Prop :=
  ∀ (m : List Byte) (s s' : State), SameStream s s' → s.phase = .absorb → CursorInRange s →
    ∃ t t', execAll (ingestAll m ++ [.finalize]) s = .next t ∧
      execAll (ingestAll m ++ [.finalize]) s' = .next t' ∧ hostDigest t = hostDigest t' ∧ hostDigest t ≠ none

/-- R103: from every state, ingesting a sequence in two calls answers what ingesting it in one does; and from a state that holds the message
`m` (R34), both calls answer, the first holding `m ++ a` and the second `m ++ a ++ b`, which is where the one call arrives. -/
def Obligations.ChunkingDoesNotMatter : Prop :=
  ∀ (a b : List Byte) (s : State),
    execAll (ingestAll (a ++ b)) s = andThen (execAll (ingestAll a) s) (execAll (ingestAll b)) ∧
    ∀ (seed : Seed) (m : List Byte), StreamState seed m s →
      ∃ u t, execAll (ingestAll a) s = .next u ∧ StreamState seed (m ++ a) u ∧
        execAll (ingestAll b) u = .next t ∧ StreamState seed (m ++ a ++ b) t ∧
        execAll (ingestAll (a ++ b)) s = .next t

/-- R104: INGESTF over a message leaves the state elements that INGEST over its filtered text leaves; the filtered text has the spaces and
tabs removed and the upper-case letters increased by 0x20. Outside `ABSORB` both sequences answer next states because a rejected command
does, the model's choice (log entry 2). -/
def Obligations.FoldedIngestionIsFilteredIngestion : Prop :=
  (∀ m : List Byte, filterBytes m =
    (m.filter fun c => c ≠ 0x20 ∧ c ≠ 0x09).map fun c => if 0x41 ≤ c ∧ c ≤ 0x5A then c + 0x20 else c) ∧
  (∀ (m : List Byte) (s : State), CursorInRange s →
    ∃ t t', execAll (ingestFoldedAll m) s = .next t ∧ execAll (ingestAll (filterBytes m)) s = .next t' ∧
      SameElements t t')

/-- R105: messages with the same filtered text have the same folded digest, from whatever state; a message of spaces and tabs has the
digest of the empty one. -/
def Obligations.FoldedDigestIgnoresCaseAndBlanks : Prop :=
  ∀ (seed : Seed) (m : List Byte) (s : State),
    (∀ (m' : List Byte) (s' : State), filterBytes m = filterBytes m' →
      ∃ t t', execAll (hashFoldedRun seed m) s = .next t ∧ execAll (hashFoldedRun seed m') s' = .next t' ∧
        hostDigest t = hostDigest t' ∧ hostDigest t ≠ none) ∧
    ((∀ c ∈ m, c = 0x20 ∨ c = 0x09) →
      ∃ t, execAll (hashFoldedRun seed m) s = .next t ∧ hostDigest t = some (digestOf seed []))

/-- U9, R108: the padded form is whole blocks and determines the message. -/
def Obligations.PaddingIsInjective : Prop :=
  (∀ m : List Byte, (padded m).length = 32 * blockCount m) ∧
  (∀ m m' : List Byte, padded m = padded m' → m = m')

/-! ## The assembler and the companions -/

/-- R67: the four pseudo-instructions' expansions. -/
def Obligations.PseudoInstructionsExpand : Prop :=
  ∀ text : List Byte,
    (AsmLine.ingests text).expand = text.map .ingest ∧ (AsmLine.ingestfs text).expand = text.map .ingestf ∧
    (AsmLine.hash text).expand = [.init (Vector.replicate 32 0)] ++ (AsmLine.ingests text).expand ++ [.finalize] ∧
    (AsmLine.hashf text).expand = [.init (Vector.replicate 32 0)] ++ (AsmLine.ingestfs text).expand ++ [.finalize]

/-- R116, R119: hashAddress always answers, from any state, the cookie of the closed form of the filtered text, 20 characters in
'a'..'p'. -/
def Obligations.HashAddressIsCookieOfDigest : Prop :=
  ∀ (text : List Byte) (s : State),
    ∃ v, hashAddress text s = some v ∧
      ∀ i : Fin 20, v[i] = 0x61 + ((digestOf (Vector.replicate 32 0) (filterBytes text))[i.val] &&& 0x0F) ∧
        0x61 ≤ v[i] ∧ v[i] ≤ 0x70

/-- R118, R119: the emitted bucket byte is 64 more than the hash modulo 53, hence in 64..116. -/
def Obligations.BucketByteInRange : Prop :=
  ∀ text : List Byte,
    (bucketOf text).toNat = 64 + (bucketHash text).toNat % 53 ∧ 64 ≤ (bucketOf text).toNat ∧ (bucketOf text).toNat ≤ 116
end

