-- ==== Sys2Proof/Laws/Mixer.lean ====
section
/-! SUPPORT. What each part of MIX leaves in each of its working values. -/

namespace Sys2Proof.Machine

variable (seed : Seed) (i : Fin 12) (b : Nat) (m : MixState)

@[simp] theorem advanceRsum_t : (advanceRsum m).t = m.t := rfl
@[simp] theorem advanceRsum_x : (advanceRsum m).x = m.x := rfl
@[simp] theorem advanceRsum_rsum : (advanceRsum m).rsum = Config.delta + m.rsum := rfl
@[simp] theorem advanceRsum_out : (advanceRsum m).out = m.out := rfl

@[simp] theorem mush_t : (mush seed i b m).t = m.t.set i.val (mush seed i b m).x := rfl
@[simp] theorem mush_rsum : (mush seed i b m).rsum = m.rsum := rfl
@[simp] theorem mush_out : (mush seed i b m).out = m.out := rfl

@[simp] theorem foldOut_t : (foldOut m).t = m.t := rfl
@[simp] theorem foldOut_x : (foldOut m).x = m.x := rfl
@[simp] theorem foldOut_rsum : (foldOut m).rsum = m.rsum := rfl

theorem foldOut_out (j : Fin 8) : (foldOut m).out[j] = m.out[j] ^^^ m.t[j.val + 4] := by
  simp [foldOut]

/-- Steps one after the other leave the round sum and the output alone (R73, R77). -/
theorem foldl_mush_rsum_out (l : List (Fin 12)) :
    (l.foldl (fun m i => mush seed i (rotOf i) m) m).rsum = m.rsum ∧
      (l.foldl (fun m i => mush seed i (rotOf i) m) m).out = m.out := by
  induction l generalizing m with
  | nil => exact ⟨rfl, rfl⟩
  | cons i l ih => exact ih (mush seed i (rotOf i) m)

@[simp] theorem innerRound_rsum : (innerRound seed m).rsum = Config.delta + m.rsum :=
  (foldl_mush_rsum_out seed (advanceRsum m) stepOrder).1

@[simp] theorem innerRound_out : (innerRound seed m).out = m.out :=
  (foldl_mush_rsum_out seed (advanceRsum m) stepOrder).2

/-- A complete MIX stays as it is (R84). -/
theorem mixAdvance_of_none {r : MixRun} (h : r.pos = none) : mixAdvance seed r = r := by
  simp [mixAdvance, h]

/-- A step before the last index moves to the next index (R84). -/
theorem mixAdvance_of_idx_lt {p : MixPos} (h : p.idx.val < 11) :
    mixAdvance seed ⟨m, some p⟩ = ⟨mixStepAt seed p m, some { p with idx := p.idx + 1 }⟩ := by
  simp [mixAdvance, h]

/-- The last step of an inner round but the sixteenth moves to the next inner round (R84). -/
theorem mixAdvance_of_rnd_lt {p : MixPos} (h : p.idx.val = 11) (h' : p.rnd.val < 15) :
    mixAdvance seed ⟨m, some p⟩ = ⟨mixStepAt seed p m, some { p with rnd := p.rnd + 1, idx := 0 }⟩ := by
  simp [mixAdvance, h, h']

/-- The last step of an outer round folds; after the second the MIX is complete (R84). -/
theorem mixAdvance_of_last {p : MixPos} (h : p.idx.val = 11) (h' : p.rnd.val = 15) :
    mixAdvance seed ⟨m, some p⟩ =
      ⟨foldOut (mixStepAt seed p m), if p.loop = 0 then some ⟨1, 0, 0⟩ else none⟩ := by
  by_cases hl : p.loop = 0 <;> simp [mixAdvance, h, h', hl]

end Sys2Proof.Machine
end

