-- ==== Sys2Proof/Laws/State.lean ====
section
/-! SUPPORT. One lemma per field of `State` for each update of it: what the update leaves in the field. -/

namespace Sys2Proof.Machine

variable (s : State)

/-! `accept` -/

@[simp] theorem accept_seed : (accept s).seed = s.seed := rfl
@[simp] theorem accept_buf : (accept s).buf = s.buf := rfl
@[simp] theorem accept_ctr : (accept s).ctr = s.ctr := rfl
@[simp] theorem accept_cursor : (accept s).cursor = s.cursor := rfl
@[simp] theorem accept_sum : (accept s).sum = s.sum := rfl
@[simp] theorem accept_out : (accept s).out = s.out := rfl
@[simp] theorem accept_phase : (accept s).phase = s.phase := rfl
@[simp] theorem accept_digest : (accept s).digest = s.digest := rfl
@[simp] theorem accept_rej : (accept s).rej = .accepted := rfl
@[simp] theorem accept_pending : (accept s).pending = s.pending := rfl

/-! `raiseReject` (R121) -/

@[simp] theorem raiseReject_seed (code : RejCode) : (raiseReject code s).seed = s.seed := rfl
@[simp] theorem raiseReject_buf (code : RejCode) : (raiseReject code s).buf = s.buf := rfl
@[simp] theorem raiseReject_ctr (code : RejCode) : (raiseReject code s).ctr = s.ctr := rfl
@[simp] theorem raiseReject_cursor (code : RejCode) : (raiseReject code s).cursor = s.cursor := rfl
@[simp] theorem raiseReject_sum (code : RejCode) : (raiseReject code s).sum = s.sum := rfl
@[simp] theorem raiseReject_out (code : RejCode) : (raiseReject code s).out = s.out := rfl
@[simp] theorem raiseReject_phase (code : RejCode) : (raiseReject code s).phase = s.phase := rfl
@[simp] theorem raiseReject_digest (code : RejCode) : (raiseReject code s).digest = s.digest := rfl
@[simp] theorem raiseReject_rej (code : RejCode) : (raiseReject code s).rej = code := rfl
@[simp] theorem raiseReject_pending (code : RejCode) : (raiseReject code s).pending = s.pending := rfl

/-! `memWrite` (R8) -/

@[simp] theorem memWrite_seed (k : Nat) (v : Byte) : (memWrite k v s).seed = s.seed := rfl
@[simp] theorem memWrite_buf (k : Nat) (v : Byte) : (memWrite k v s).buf = s.buf.setIfInBounds k v := rfl
@[simp] theorem memWrite_ctr (k : Nat) (v : Byte) : (memWrite k v s).ctr = s.ctr := rfl
@[simp] theorem memWrite_cursor (k : Nat) (v : Byte) : (memWrite k v s).cursor = s.cursor := rfl
@[simp] theorem memWrite_sum (k : Nat) (v : Byte) : (memWrite k v s).sum = s.sum := rfl
@[simp] theorem memWrite_out (k : Nat) (v : Byte) : (memWrite k v s).out = s.out := rfl
@[simp] theorem memWrite_phase (k : Nat) (v : Byte) : (memWrite k v s).phase = s.phase := rfl
@[simp] theorem memWrite_digest (k : Nat) (v : Byte) : (memWrite k v s).digest = s.digest := rfl
@[simp] theorem memWrite_rej (k : Nat) (v : Byte) : (memWrite k v s).rej = s.rej := rfl
@[simp] theorem memWrite_pending (k : Nat) (v : Byte) : (memWrite k v s).pending = s.pending := rfl

/-! `setCursor` -/

@[simp] theorem setCursor_seed (c : BitVec 6) : (setCursor c s).seed = s.seed := rfl
@[simp] theorem setCursor_buf (c : BitVec 6) : (setCursor c s).buf = s.buf := rfl
@[simp] theorem setCursor_ctr (c : BitVec 6) : (setCursor c s).ctr = s.ctr := rfl
@[simp] theorem setCursor_cursor (c : BitVec 6) : (setCursor c s).cursor = c := rfl
@[simp] theorem setCursor_sum (c : BitVec 6) : (setCursor c s).sum = s.sum := rfl
@[simp] theorem setCursor_out (c : BitVec 6) : (setCursor c s).out = s.out := rfl
@[simp] theorem setCursor_phase (c : BitVec 6) : (setCursor c s).phase = s.phase := rfl
@[simp] theorem setCursor_digest (c : BitVec 6) : (setCursor c s).digest = s.digest := rfl
@[simp] theorem setCursor_rej (c : BitVec 6) : (setCursor c s).rej = s.rej := rfl
@[simp] theorem setCursor_pending (c : BitVec 6) : (setCursor c s).pending = s.pending := rfl

/-! `ctrInc` (R93) -/

@[simp] theorem ctrInc_seed : (ctrInc s).seed = s.seed := rfl
@[simp] theorem ctrInc_buf : (ctrInc s).buf = s.buf := rfl
@[simp] theorem ctrInc_ctr : (ctrInc s).ctr = incCounter s.ctr := rfl
@[simp] theorem ctrInc_cursor : (ctrInc s).cursor = s.cursor := rfl
@[simp] theorem ctrInc_sum : (ctrInc s).sum = s.sum := rfl
@[simp] theorem ctrInc_out : (ctrInc s).out = s.out := rfl
@[simp] theorem ctrInc_phase : (ctrInc s).phase = s.phase := rfl
@[simp] theorem ctrInc_digest : (ctrInc s).digest = s.digest := rfl
@[simp] theorem ctrInc_rej : (ctrInc s).rej = s.rej := rfl
@[simp] theorem ctrInc_pending : (ctrInc s).pending = s.pending := rfl

/-! `runMix` (R79) -/

@[simp] theorem runMix_seed (block : Block) : (runMix block s).seed = s.seed := rfl
@[simp] theorem runMix_buf (block : Block) : (runMix block s).buf = s.buf := rfl
@[simp] theorem runMix_ctr (block : Block) : (runMix block s).ctr = s.ctr := rfl
@[simp] theorem runMix_cursor (block : Block) : (runMix block s).cursor = s.cursor := rfl
@[simp] theorem runMix_sum (block : Block) : (runMix block s).sum = s.sum := rfl
@[simp] theorem runMix_out (block : Block) : (runMix block s).out = mix block s.seed := rfl
@[simp] theorem runMix_phase (block : Block) : (runMix block s).phase = s.phase := rfl
@[simp] theorem runMix_digest (block : Block) : (runMix block s).digest = s.digest := rfl
@[simp] theorem runMix_rej (block : Block) : (runMix block s).rej = s.rej := rfl
@[simp] theorem runMix_pending (block : Block) : (runMix block s).pending = s.pending := rfl

/-! `sumAcc` (R94) -/

@[simp] theorem sumAcc_seed : (sumAcc s).seed = s.seed := rfl
@[simp] theorem sumAcc_buf : (sumAcc s).buf = s.buf := rfl
@[simp] theorem sumAcc_ctr : (sumAcc s).ctr = s.ctr := rfl
@[simp] theorem sumAcc_cursor : (sumAcc s).cursor = s.cursor := rfl
@[simp] theorem sumAcc_sum : (sumAcc s).sum = addLanes s.sum s.out := rfl
@[simp] theorem sumAcc_out : (sumAcc s).out = s.out := rfl
@[simp] theorem sumAcc_phase : (sumAcc s).phase = s.phase := rfl
@[simp] theorem sumAcc_digest : (sumAcc s).digest = s.digest := rfl
@[simp] theorem sumAcc_rej : (sumAcc s).rej = s.rej := rfl
@[simp] theorem sumAcc_pending : (sumAcc s).pending = s.pending := rfl

/-! `flush` (R92): all that a flush does -/

@[simp] theorem flush_seed : (flush s).seed = s.seed := by simp [flush]
@[simp] theorem flush_buf : (flush s).buf = s.buf := by simp [flush]
@[simp] theorem flush_ctr : (flush s).ctr = incCounter s.ctr := by simp [flush]
@[simp] theorem flush_cursor : (flush s).cursor = 0 := by simp [flush]
@[simp] theorem flush_sum : (flush s).sum = addLanes s.sum (mix (blockView s.buf (incCounter s.ctr)) s.seed) := by simp [flush]
@[simp] theorem flush_out : (flush s).out = mix (blockView s.buf (incCounter s.ctr)) s.seed := by simp [flush]
@[simp] theorem flush_phase : (flush s).phase = s.phase := by simp [flush]
@[simp] theorem flush_digest : (flush s).digest = s.digest := by simp [flush]
@[simp] theorem flush_rej : (flush s).rej = s.rej := by simp [flush]
@[simp] theorem flush_pending : (flush s).pending = s.pending := by simp [flush]

/-! `emitDigest` (R98, R106): all that the end of FINALIZE does -/

@[simp] theorem emitDigest_seed : (emitDigest s).seed = s.seed := rfl
@[simp] theorem emitDigest_buf : (emitDigest s).buf = s.buf := rfl
@[simp] theorem emitDigest_ctr : (emitDigest s).ctr = s.ctr := rfl
@[simp] theorem emitDigest_cursor : (emitDigest s).cursor = s.cursor := rfl
@[simp] theorem emitDigest_sum : (emitDigest s).sum = s.sum := rfl
@[simp] theorem emitDigest_out : (emitDigest s).out = mix (finalBlock s.sum) s.seed := by simp only [emitDigest, runMix_out]
@[simp] theorem emitDigest_phase : (emitDigest s).phase = .done := rfl
@[simp] theorem emitDigest_digest : (emitDigest s).digest = serialise (mix (finalBlock s.sum) s.seed) := by simp only [emitDigest, runMix_out]
@[simp] theorem emitDigest_rej : (emitDigest s).rej = s.rej := rfl
@[simp] theorem emitDigest_pending : (emitDigest s).pending = s.pending := rfl

/-! `takeEvent` -/

@[simp] theorem takeEvent_seed (rest : List HostEvent) : (takeEvent rest s).seed = s.seed := rfl
@[simp] theorem takeEvent_buf (rest : List HostEvent) : (takeEvent rest s).buf = s.buf := rfl
@[simp] theorem takeEvent_ctr (rest : List HostEvent) : (takeEvent rest s).ctr = s.ctr := rfl
@[simp] theorem takeEvent_cursor (rest : List HostEvent) : (takeEvent rest s).cursor = s.cursor := rfl
@[simp] theorem takeEvent_sum (rest : List HostEvent) : (takeEvent rest s).sum = s.sum := rfl
@[simp] theorem takeEvent_out (rest : List HostEvent) : (takeEvent rest s).out = s.out := rfl
@[simp] theorem takeEvent_phase (rest : List HostEvent) : (takeEvent rest s).phase = s.phase := rfl
@[simp] theorem takeEvent_digest (rest : List HostEvent) : (takeEvent rest s).digest = s.digest := rfl
@[simp] theorem takeEvent_rej (rest : List HostEvent) : (takeEvent rest s).rej = s.rej := rfl
@[simp] theorem takeEvent_pending (rest : List HostEvent) : (takeEvent rest s).pending = rest := rfl

end Sys2Proof.Machine
end

