-- ==== Sys2Proof/Laws/Ops.lean ====
section
/-! SUPPORT. For each shared operation, what it can do, said once: the lemmas the proofs cite instead of unfolding it. -/

namespace Sys2Proof.Machine

/-! ## Outcomes -/

@[simp] theorem andThen_next (s : State) (f : State → Result) : andThen (.next s) f = f s := rfl
@[simp] theorem andThen_fault (e : Fault) (f : State → Result) : andThen (.fault e) f = .fault e := rfl
@[simp] theorem andThen_refused (e : Refusal) (f : State → Result) : andThen (.refused e) f = .refused e := rfl

/-- A sequence answers a next state only through a next state of its first part. -/
theorem andThen_eq_next {r : Result} {f : State → Result} {t : State} (h : andThen r f = .next t) :
    ∃ s, r = .next s ∧ f s = .next t := by
  cases r with
  | next s => exact ⟨s, rfl, h⟩
  | fault e => cases h
  | refused e => cases h

@[simp] theorem execAll_nil (s : State) : execAll [] s = .next s := rfl
@[simp] theorem execAll_cons (i : Instr) (is : List Instr) (s : State) :
    execAll (i :: is) s = andThen (exec i s) (execAll is) := rfl

/-! ## The two checks -/

theorem withRoom_of_le {f : State → State} {s : State} (h : s.cursor.toNat ≤ 31) : withRoom f s = .next (f s) :=
  if_pos (Nat.lt_succ_of_le h)

/-- Everything `withRoom` can do: run under PUT's precondition, or fault without it. -/
theorem withRoom_cases (f : State → State) (s : State) :
    (s.cursor.toNat ≤ 31 ∧ withRoom f s = .next (f s)) ∨
      (32 ≤ s.cursor.toNat ∧ withRoom f s = .fault .bufIndexOutOfRange) := by
  by_cases h : s.cursor.toNat ≤ 31
  · exact .inl ⟨h, withRoom_of_le h⟩
  · exact .inr ⟨by omega, if_neg (by simp only [Config.bufBytes]; omega)⟩

theorem inAbsorb_of_absorb {k : State → Result} {s : State} (h : s.phase = .absorb) : inAbsorb k s = k (accept s) := by
  simp [inAbsorb, h]

/-- Everything the phase check can do (R122). -/
theorem inAbsorb_cases (k : State → Result) (s : State) :
    (s.phase = .absorb ∧ inAbsorb k s = k (accept s)) ∨
      (s.phase = .uninit ∧ inAbsorb k s = .next (raiseReject .notInitialised s)) ∨
      (s.phase = .done ∧ inAbsorb k s = .next (raiseReject .afterFinalize s)) := by
  cases h : s.phase <;> simp [inAbsorb, h]

/-! ## The buffer -/

theorem bufByte_memWrite_same {s : State} {v : Byte} {k : Fin 32} : bufByte (memWrite k.val v s).buf k = v := by
  simp [bufByte]

theorem bufByte_memWrite_of_ne {s : State} {v : Byte} {a : Nat} {k : Fin 32} (h : a ≠ k.val) :
    bufByte (memWrite a v s).buf k = bufByte s.buf k := by
  simp [bufByte, Vector.getElem_setIfInBounds_ne, h]

/-! ## PUT and the padding loop -/

/-- The cursor after the increment of PUT, as a number. -/
theorem cursor_succ_toNat {c : BitVec 6} (h : c.toNat ≤ 31) : (c + 1).toNat = c.toNat + 1 := by
  rw [BitVec.toNat_add]
  exact Nat.mod_eq_of_lt (by simp; omega)

/-- PUT with room left after it: one byte stored, the cursor advanced (R91). -/
theorem putByte_of_lt {c : Byte} {s : State} (h : s.cursor.toNat < 31) :
    putByte c s = setCursor (s.cursor + 1) (memWrite s.cursor.toNat c s) := by
  have hs := cursor_succ_toNat (Nat.le_of_lt h)
  have hne : cursorFull (s.cursor + 1) = false := by
    refine beq_false_of_ne fun e => ?_
    rw [e] at hs
    simp at hs
    omega
  simp only [putByte, setCursor_cursor, hne, Bool.false_eq_true, if_false]

/-- PUT of the byte that fills the buffer: one byte stored, then a flush (R91, R92). -/
theorem putByte_of_last {c : Byte} {s : State} (h : s.cursor.toNat = 31) :
    putByte c s = flush (setCursor 32 (memWrite 31 c s)) := by
  have hc : s.cursor = 31 := BitVec.eq_of_toNat_eq (by simpa using h)
  simp [putByte, cursorFull, hc]

/-- Everything PUT can do under its precondition (R91). -/
theorem putByte_cases (c : Byte) {s : State} (h : s.cursor.toNat ≤ 31) :
    (s.cursor.toNat < 31 ∧ putByte c s = setCursor (s.cursor + 1) (memWrite s.cursor.toNat c s)) ∨
      (s.cursor.toNat = 31 ∧ putByte c s = flush (setCursor 32 (memWrite 31 c s))) := by
  rcases Nat.lt_or_eq_of_le h with h | h
  · exact .inl ⟨h, putByte_of_lt h⟩
  · exact .inr ⟨h, putByte_of_last h⟩

@[simp] theorem padLoop_zero (s : State) : padLoop 0 s = s := rfl

/-- The padding loop tests first: at cursor 0 it stores nothing (R98, D4). -/
theorem padLoop_of_zero_cursor {n : Nat} {s : State} (h : s.cursor = 0) : padLoop n s = s := by
  cases n with
  | zero => rfl
  | succ n => simp [padLoop, cursorNonzero, h]

theorem padLoop_succ_of_nonzero {n : Nat} {s : State} (h : s.cursor ≠ 0) :
    padLoop (n + 1) s = padLoop n (putByte Config.pad s) :=
  if_pos (bne_iff_ne.mpr h)

/-- Everything the padding loop does from a cursor that leaves `n` bytes to the block boundary: zero bytes up to it and one flush (R101). -/
theorem padLoop_spec (n : Nat) (s : State) (hc : s.cursor.toNat = 32 - n) (h1 : 1 ≤ n) (h2 : n ≤ 31) :
    ∃ buf', padLoop n s = flush (setCursor 32 { s with buf := buf' }) ∧
      (∀ k : Fin 32, k.val < s.cursor.toNat → bufByte buf' k = bufByte s.buf k) ∧
      (∀ k : Fin 32, s.cursor.toNat ≤ k.val → bufByte buf' k = Config.pad) := by
  induction n generalizing s with
  | zero => omega
  | succ n ih =>
    rw [padLoop_succ_of_nonzero (by intro h; simp [h] at hc; omega)]
    rcases Nat.eq_zero_or_pos n with rfl | hn
    · refine ⟨(memWrite 31 Config.pad s).buf, ?_, ?_, ?_⟩
      · rw [putByte_of_last (by omega)]; rfl
      · intro k hk; exact bufByte_memWrite_of_ne (by omega)
      · intro k hk
        obtain rfl : k = 31 := by omega
        exact bufByte_memWrite_same (k := 31)
    · rw [putByte_of_lt (by omega)]
      have hcs := cursor_succ_toNat (c := s.cursor) (by omega)
      obtain ⟨b', e, hlo, hhi⟩ := ih (setCursor (s.cursor + 1) (memWrite s.cursor.toNat Config.pad s))
        (by simp only [setCursor_cursor]; omega) hn (by omega)
      refine ⟨b', e, ?_, ?_⟩
      · intro k hk
        rw [hlo k (by simp only [setCursor_cursor]; omega)]
        exact bufByte_memWrite_of_ne (by omega)
      · intro k hk
        by_cases hkc : k.val = s.cursor.toNat
        · rw [hlo k (by simp only [setCursor_cursor]; omega), ← hkc]
          exact bufByte_memWrite_same
        · exact hhi k (by simp only [setCursor_cursor]; omega)

/-- More fuel than the block boundary needs changes nothing (R101). -/
theorem padLoop_add (n k : Nat) (s : State) (h : (padLoop n s).cursor = 0) : padLoop (n + k) s = padLoop n s := by
  induction n generalizing s with
  | zero => exact padLoop_of_zero_cursor h
  | succ n ih =>
    rw [Nat.add_right_comm]
    by_cases hc : s.cursor = 0
    · rw [padLoop_of_zero_cursor hc, padLoop_of_zero_cursor hc]
    · rw [padLoop_succ_of_nonzero hc] at h ⊢
      rw [padLoop_succ_of_nonzero hc]
      exact ih _ h

/-- Everything the closing of the stream does: the pending bytes, the end marker and zeros, flushed once (R98, R101). -/
theorem closeStream_spec (s : State) (h : s.cursor.toNat ≤ 31) :
    ∃ buf', closeStream s = flush (setCursor 32 { s with buf := buf' }) ∧
      (∀ k : Fin 32, k.val < s.cursor.toNat → bufByte buf' k = bufByte s.buf k) ∧
      (∀ k : Fin 32, k.val = s.cursor.toNat → bufByte buf' k = Config.endMark) ∧
      (∀ k : Fin 32, s.cursor.toNat < k.val → bufByte buf' k = Config.pad) := by
  rcases putByte_cases Config.endMark h with ⟨hlt, e⟩ | ⟨heq, e⟩
  · have hcs := cursor_succ_toNat h
    obtain ⟨b', e', hlo, hhi⟩ := padLoop_spec (31 - s.cursor.toNat)
      (setCursor (s.cursor + 1) (memWrite s.cursor.toNat Config.endMark s))
      (by simp only [setCursor_cursor]; omega) (by omega) (by omega)
    refine ⟨b', ?_, ?_, ?_, ?_⟩
    · have hfuel : Config.maxPadding = (31 - s.cursor.toNat) + s.cursor.toNat := by simp only [Config.maxPadding]; omega
      rw [closeStream, e, hfuel, padLoop_add _ _ _ (by rw [e']; simp), e']
      rfl
    · intro k hk
      rw [hlo k (by simp only [setCursor_cursor]; omega)]
      exact bufByte_memWrite_of_ne (by omega)
    · intro k hk
      rw [hlo k (by simp only [setCursor_cursor]; omega), ← hk]
      exact bufByte_memWrite_same
    · intro k hk
      exact hhi k (by simp only [setCursor_cursor]; omega)
  · refine ⟨(memWrite 31 Config.endMark s).buf, ?_, ?_, ?_, ?_⟩
    · rw [closeStream, e, padLoop_of_zero_cursor (by simp)]
      rfl
    · intro k hk; exact bufByte_memWrite_of_ne (by omega)
    · intro k hk
      obtain rfl : k = 31 := by omega
      exact bufByte_memWrite_same (k := 31)
    · intro k hk; omega

/-! ## The step -/

/-- Everything a step can do: idle, reset, or take one command, which is rejected or executed. -/
theorem step_cases (s : State) :
    (s.pending = [] ∧ step s = .next (idle s)) ∨
      (∃ rest, s.pending = .reset :: rest ∧ step s = .next (resetEvent rest)) ∨
      (∃ c rest e, s.pending = .command c :: rest ∧ decode c = .error e ∧
        step s = .next (raiseReject .reservedEncoding (takeEvent rest s))) ∨
      (∃ c rest i, s.pending = .command c :: rest ∧ decode c = .ok i ∧ step s = exec i (takeEvent rest s)) := by
  unfold step
  split
  next h => exact .inl ⟨h, rfl⟩
  next rest h => exact .inr (.inl ⟨rest, h, rfl⟩)
  next c rest h =>
    cases hd : decode c with
    | error e => exact .inr (.inr (.inl ⟨c, rest, e, h, hd, by simp [runCommand, hd]⟩))
    | ok i => exact .inr (.inr (.inr ⟨c, rest, i, h, hd, by simp [runCommand, hd]⟩))

end Sys2Proof.Machine
end

