-- ==== Sys2Proof/Laws/PerInstr.lean ====
section
/-! SUPPORT. Facts about each instruction as syntax: every instruction is well formed, since every operand value is legal
(spec/30_encoding.md R63, R68), and its command word has the fields R61 and R62 give it. -/

namespace Sys2Proof

/-- The fields of a word put together from fields are those fields (R61). -/
theorem fieldsOf_wordOf (f : Fields) : fieldsOf (wordOf f) = f := by
  obtain ⟨op, mbz, byte⟩ := f
  simp only [fieldsOf, wordOf, Fields.mk.injEq]
  refine ⟨?_, ?_, ?_⟩ <;>
    · ext k hk
      simp only [BitVec.getElem_extractLsb', BitVec.getLsbD_append]
      grind

end Sys2Proof

/-- The instruction is well formed and its command word has its fields. -/
def Sys2Proof.Laws.EncodedFields.Statement (i : Sys2Proof.Instr) : Prop :=
  i.wellFormed = true ∧ Sys2Proof.fieldsOf (Sys2Proof.encode i).word = i.fields

theorem Sys2Proof.Laws.EncodedFields.init (seed : Sys2Proof.Seed) :
    Sys2Proof.Laws.EncodedFields.Statement (.init seed) :=
  ⟨rfl, Sys2Proof.fieldsOf_wordOf _⟩

theorem Sys2Proof.Laws.EncodedFields.ingest (byte : Sys2Proof.Byte) :
    Sys2Proof.Laws.EncodedFields.Statement (.ingest byte) :=
  ⟨rfl, Sys2Proof.fieldsOf_wordOf _⟩

theorem Sys2Proof.Laws.EncodedFields.ingestf (byte : Sys2Proof.Byte) :
    Sys2Proof.Laws.EncodedFields.Statement (.ingestf byte) :=
  ⟨rfl, Sys2Proof.fieldsOf_wordOf _⟩

theorem Sys2Proof.Laws.EncodedFields.finalize : Sys2Proof.Laws.EncodedFields.Statement .finalize :=
  ⟨rfl, Sys2Proof.fieldsOf_wordOf _⟩
end

