-- ==== Sys2Proof/Tests/Slice0.lean ====
section
/-! SUPPORT. Tests of one step each, their expected values taken from spec/95_test_vectors.md (the section stands beside each), and
witnesses that the hypotheses of the statements can be met. -/

open Sys2Proof Sys2Proof.Machine

namespace Sys2Proof.Tests

/-- The next state of an outcome. -/
def after (r : Result) : Option State :=
  match r with
  | .next t => some t
  | .fault _ => none
  | .refused _ => none

/-- A small state: the zero Seed, in a given phase with a given cursor. -/
def small (phase : Phase) (cursor : BitVec 6) : State := { State.reset with phase := phase, cursor := cursor }

/-- The seed `K` and the block `B` of section 2.2. -/
def seedK : Seed := Vector.ofFn fun k : Fin 32 => BitVec.ofNat 32 ((k.val + 1) * 0x01234567)
def blockB : Block := Vector.ofFn fun i : Fin 12 => BitVec.ofNat 32 ((i.val + 1) * 0x89abcdef)

/-- A command with the all-zero Seed on `seed_in`. -/
def cmd (w : CommandWord) : Command := ⟨w, Config.seedValue⟩

/-- A state with one event pending. -/
def awaiting (phase : Phase) (e : HostEvent) : State := { small phase 0 with pending := [e] }

/-! ## Well-formedness: one ill-formed term for each check (R64) -/

theorem test_wellFormed_refuses_unknown_op : (Fields.mk 0x5 0 0).wellFormed = false := by decide
theorem test_wellFormed_refuses_mbz : (Fields.mk 0x2 0x1 0x61).wellFormed = false := by decide
theorem test_wellFormed_refuses_byte_of_init : (Fields.mk 0x1 0 0x01).wellFormed = false := by decide
theorem test_wellFormed_accepts_byte_of_ingest : (Fields.mk 0x2 0 0xFF).wellFormed = true := by decide

/-! ## Decoding: words written out bit by bit from R62 (section 2.6) -/

theorem test_decode_init : decode (cmd 0b0001000000000000) = .ok (.init Config.seedValue) := by decide
theorem test_decode_init_takes_seed : decode ⟨0b0001000000000000, seedK⟩ = .ok (.init seedK) := rfl
theorem test_decode_ingest : decode (cmd 0b0010000001100001) = .ok (.ingest 0x61) := by decide
theorem test_decode_ingest_last : decode (cmd 0b0010000011111111) = .ok (.ingest 0xFF) := by decide
theorem test_decode_ingestf : decode (cmd 0b0011000001000110) = .ok (.ingestf 0x46) := by decide
theorem test_decode_finalize : decode (cmd 0b0100000000000000) = .ok .finalize := by decide
theorem test_decode_reserved :
    [0x0000, 0x1001, 0x1100, 0x2161, 0x4001, 0x5000, 0xffff].all (fun w => decodeTableWord 16 w == none) = true := by
  decide
theorem test_encode_ingestf : (encode (.ingestf 0x46)).word = 0x3046 := by decide

/-! ## Rotation, conversions, the step and MIX (sections 2.1 to 2.3) -/

theorem test_rotl : [5, 7, 9, 13].map (rotl 0x80000001) = [0x30, 0xc0, 0x300, 0x3000] := by decide
theorem test_leWord : leWord 0x61 0x62 0x63 0x2E = 0x2E636261 := by decide
theorem test_leByte : [0, 1, 2, 3].map (leByte 0x215691e0) = [0xe0, 0x91, 0x56, 0x21] := by decide

/-- Vectors S3, S4 and S6 tell the spec's grouping of the step from the rejected one. -/
theorem test_mush_grouping :
    (mush (Vector.replicate 32 0) 0 5 ⟨Vector.replicate 12 0x20, 1, 0x9e3779b9, Vector.replicate 8 0⟩).x = 0x9e3779ba ∧
    (mush (Vector.replicate 32 0) 3 13 ⟨Vector.replicate 12 0xffffffff, 0xffffffff, 1, Vector.replicate 8 0⟩).x =
      0xfffffffe ∧
    (mush (Vector.replicate 32 0x0badf00d) 3 13
      ⟨Vector.replicate 12 0x12345678, 0xdeadbeef, 0x3c6ef372, Vector.replicate 8 0⟩).x = 0xb8e70ff9 := by
  decide

/-- The rotate table of R75. -/
theorem test_rotate_table : stepOrder.map rotOf = [5, 7, 9, 13, 5, 7, 9, 13, 5, 7, 9, 13] := by decide

/-- Vector X1 after inner round (0,1). -/
theorem test_two_inner_rounds :
    ((innerRound Config.seedValue)^[2] (mixSetup (Vector.replicate 12 0) Config.seedValue)).t.toList =
      [0x568ad628, 0xff650d6e, 0x5425b057, 0x0187aa05, 0x3110ab41, 0xa94d305c, 0xa79aa2fe, 0xb550096f, 0x97c96e3c,
       0x0f1f0425, 0xd95439cd, 0x60880f99] := by
  decide

/-- Vector X1. -/
theorem test_mix_zero : (mix (Vector.replicate 12 0) Config.seedValue).toList =
    [0x735f0f53, 0x419bd3ee, 0x99ce0d99, 0x3e3f070d, 0x9fd84c10, 0x7ba57fac, 0x509986cd, 0x4fa60016] := by
  decide +kernel

/-- Vector X9: all three roles of the Seed. -/
theorem test_mix_seed : (mix blockB seedK).toList =
    [0xad265fb6, 0x5ba0e28f, 0x8f908a7b, 0x2f7ab375, 0x871c4dfa, 0x4f433b43, 0x8d09de8c, 0x60a856bc] := by
  decide +kernel

/-- MIX run by its position is complete after 384 steps, not before, with the result of X9 (R83, R84). -/
theorem test_stepped_mix :
    ((mixAdvance seedK)^[384] (mixStart blockB seedK)).pos = none ∧
    ((mixAdvance seedK)^[383] (mixStart blockB seedK)).pos = some ⟨1, 15, 11⟩ ∧
    ((mixAdvance seedK)^[384] (mixStart blockB seedK)).mix.out = mix blockB seedK := by
  decide +kernel

/-! ## Filter, counter, digest sum (sections 2.3, 2.4) -/

theorem test_filter :
    [0x09, 0x20, 0x41, 0x5A, 0x40, 0x5B, 0x0A, 0xC0, 0x00].map filterByte =
      [.drop, .drop, .keep 0x61, .keep 0x7A, .keep 0x40, .keep 0x5B, .keep 0x0A, .keep 0xC0, .keep 0x00] := by
  decide

theorem test_counter_carries :
    incCounter #v[0xffffffff, 5, 0, 0] = #v[0, 6, 0, 0] ∧
    incCounter #v[0xffffffff, 0xffffffff, 0xffffffff, 0] = #v[0, 0, 0, 1] ∧
    incCounter #v[0xffffffff, 0xffffffff, 0xffffffff, 0xffffffff] = #v[0, 0, 0, 0] := by
  decide

theorem test_sum_lanes :
    addLanes #v[0xffffffff, 0x80000000, 1, 0, 0xfffffffe, 0x7fffffff, 0x12345678, 0xdeadbeef]
      #v[1, 0x80000000, 0xffffffff, 0, 3, 1, 0x87654321, 0x21524111] =
      #v[0, 0, 0, 0, 1, 0x80000000, 0x99999999, 0] := by
  decide

/-! ## The commands -/

/-- INIT leaves `STATUS` 1 and takes its Seed, even in `DONE` (R90). -/
theorem test_init : (after (exec (.init seedK) (small .done 7))).map (fun t => (t.status, t.cursor, t.seed)) =
    some (1, 0, seedK) := by
  decide

/-- INGEST 'a' after INIT (R95). -/
theorem test_ingest : (after (exec (.ingest 0x61) (small .absorb 0))).map
    (fun t => (bufByte t.buf 0, t.cursor, dataWord t.buf 0)) = some (0x61, 1, 0x61) := by
  decide

/-- The flush with a carry into the fourth counter word (section 2.4, last row). -/
theorem test_ingest_flush_carry :
    (after (exec (.ingest 0x00) { small .absorb 31 with ctr := #v[0xffffffff, 0xffffffff, 0xffffffff, 0] })).map
      (fun t => (t.cursor, t.ctr.toList, t.sum.toList)) =
    some (0, [0, 0, 0, 1],
      [0x86e19195, 0x6239fc34, 0xe585f9d0, 0x51224782, 0xc63b1684, 0x967f3d6d, 0x8c16f42d, 0x19a592dd]) := by
  decide +kernel

/-- INGESTF folds 'F', drops ' ' and keeps '[' (R97). -/
theorem test_ingestf : [0x46, 0x20, 0x5B].map (fun b => (after (exec (.ingestf b) (small .absorb 0))).map
    (fun t => (bufByte t.buf 0, t.cursor))) = [some (0x66, 1), some (0, 0), some (0x5B, 1)] := by
  decide

/-- The phase check of INGESTF comes before the filter (section 2.7). -/
theorem test_ingestf_space_in_uninit :
    (after (exec (.ingestf 0x20) (small .uninit 0))).map (fun t => (t.rej, t.phase)) = some (.notInitialised, .uninit) := by
  decide

/-- FINALIZE of the empty message: vector M1. -/
theorem test_finalize_empty : (after (exec .finalize (small .absorb 0))).map (fun t => (t.status, t.digest.toList)) =
    some (2, [0xe0, 0x91, 0x56, 0x21, 0xaf, 0xe2, 0x14, 0x17, 0x6a, 0x61, 0xab, 0xe1, 0x80, 0xa3, 0x18, 0x49,
      0x3f, 0xc4, 0xef, 0x23, 0xd7, 0xe0, 0x6d, 0xb7, 0xea, 0xac, 0x6f, 0x08, 0xa3, 0x25, 0x2c, 0x6f]) := by
  decide +kernel

/-- FINALIZE with 31 bytes pending adds no padding byte: vector M8. -/
theorem test_finalize_full :
    (after (exec .finalize { small .absorb 31 with
      buf := Vector.ofFn fun k : Fin 32 => BitVec.ofNat 8 (if k.val < 26 then 0x61 + k.val else 0x30 + (k.val - 26)) })).map
      (fun t => (t.ctr.toList, t.digest.toList.take 8)) =
    some ([1, 0, 0, 0], [0xf4, 0xaf, 0x0b, 0xb4, 0x5c, 0x81, 0xb0, 0xaf]) := by
  decide +kernel

/-! ## Reject and the step (section 2.7) -/

/-- The codes of R29 and R122. -/
theorem test_codes :
    [Phase.uninit, .absorb, .done].map Phase.code = [0, 1, 2] ∧
      [RejCode.accepted, .reservedEncoding, .notInitialised, .afterFinalize].map RejCode.code = [0, 1, 2, 3] := by
  decide

theorem test_step_reserved_in_done :
    (after (step (awaiting .done (.command (cmd 0x2161))))).map (fun t => (t.rej, t.phase, t.pending)) =
      some (.reservedEncoding, .done, []) := by
  decide
theorem test_step_finalize_in_done :
    (after (step (awaiting .done (.command (cmd 0x4000))))).map (fun t => (t.rej, t.phase)) =
      some (.afterFinalize, .done) := by
  decide
theorem test_step_first_instruction :
    (after (step (State.reset.withFetchWord 16 0x1000))).map (fun t => (t.rej, t.phase)) = some (.accepted, .absorb) := by
  decide
theorem test_step_reset : (after (step (awaiting .absorb .reset))).map (fun t => t.status) = some 0 := by decide

/-! ## The assembler and the companions (section 2.8, programs P3 and P7) -/

theorem test_assemble :
    assemble [(['K'], seedK)]
      [['I', 'N', 'I', 'T', ' ', 's', 'e', 'e', 'd', '=', 'K'],
       [' ', ';', ' ', 'x'],
       ['I', 'N', 'G', 'E', 'S', 'T', 'F', 'S', ' ', Char.ofNat 0x22, '<', 'F', Char.ofNat 0x22, ' ', ';'],
       ['I', 'N', 'G', 'E', 'S', 'T', ' ', '0', 'x', 'f', 'F']] =
      some [.init seedK, .ingestf 0x3c, .ingestf 0x46, .ingest 0xff] := by
  decide
theorem test_bucketOf : bucketOf [0x54] = 110 ∧ bucketRaw [] = 28 := by decide
theorem test_cookie_first :
    (cookie (Vector.ofFn fun k : Fin 32 => if k.val = 0 then 0xe0 else 0x91)).toList.take 2 = [0x61, 0x62] := by
  decide

/-! ## Witnesses: for each statement with hypotheses, a state and operands that meet them all -/

theorem witness_ResetEntersUninit : (awaiting .absorb .reset).pending = .reset :: [] := rfl

theorem witness_IdleStepHoldsState : State.reset.pending = [] := rfl

theorem witness_StepRunsDecodedCommand :
    (awaiting .uninit (.command (cmd 0x1000))).pending = .command (cmd 0x1000) :: [] ∧
      decode (cmd 0x1000) = .ok (.init Config.seedValue) :=
  ⟨rfl, rfl⟩

/-- A state in each phase, and one with each code. -/
theorem witness_HostReadsPhaseAndDigest :
    (small .uninit 0).phase = .uninit ∧ (small .absorb 0).phase = .absorb ∧ (small .done 0).phase = .done ∧
      (small .absorb 0).phase ≠ .done ∧ (small .uninit 0).rej = .accepted ∧
      (raiseReject .reservedEncoding (small .uninit 0)).rej = .reservedEncoding ∧
      (raiseReject .notInitialised (small .uninit 0)).rej = .notInitialised ∧
      (raiseReject .afterFinalize (small .done 0)).rej = .afterFinalize := by
  decide

/-- The last byte value, and INIT with its Seed. -/
theorem witness_EncodeDecodeRoundTrip :
    decode (cmd 0x20ff) = .ok (.ingest 0xFF) ∧ decode ⟨0x1000, seedK⟩ = .ok (.init seedK) :=
  ⟨by decide, rfl⟩

/-- Each group of reserved words at the words beside an accepted one: op 0, op 5, mbz, byte of INIT, byte of FINALIZE. -/
theorem witness_ReservedWordsAreRejected :
    (awaiting .absorb (.command (cmd 0x5000))).pending = .command (cmd 0x5000) :: [] ∧
      (cmd 0x0000).word.extractLsb' 12 4 = 0 ∧ 5 ≤ ((cmd 0x5000).word.extractLsb' 12 4).toNat ∧
      (cmd 0x2161).word.extractLsb' 8 4 ≠ 0 ∧
      ((cmd 0x1001).word.extractLsb' 12 4 = 1 ∧ (cmd 0x1001).word.extractLsb' 0 8 ≠ 0) ∧
      ((cmd 0x4001).word.extractLsb' 12 4 = 4 ∧ (cmd 0x4001).word.extractLsb' 0 8 ≠ 0) := by
  decide

/-- The first and the last cursor without a flush. -/
theorem witness_IngestStoresByte :
    (small .absorb 0).phase = .absorb ∧ (small .absorb 0).cursor.toNat < 31 ∧ (small .absorb 30).cursor.toNat < 31 := by
  decide

theorem witness_IngestFlushesFullBlock : (small .absorb 31).phase = .absorb ∧ (small .absorb 31).cursor = 31 :=
  ⟨rfl, rfl⟩

/-- A byte kept by FILTER, for its second clause. -/
theorem witness_FilterDropsAndFolds : filterByte 0x5A = .keep 0x7A := by decide

/-- The last cursor; each clause at bytes of its own and at the ends of the letter range. -/
theorem witness_IngestfFiltersByte :
    (small .absorb 31).phase = .absorb ∧ (small .absorb 31).cursor.toNat ≤ 31 ∧
      ((0x20 : Byte) = 0x20 ∨ (0x20 : Byte) = 0x09) ∧ ¬((0x41 : Byte) = 0x20 ∨ (0x41 : Byte) = 0x09) ∧
      ((0x41 : Byte) ≤ 0x41 ∧ (0x5A : Byte) ≤ 0x5A) ∧ ¬((0x41 : Byte) ≤ 0x5B ∧ (0x5B : Byte) ≤ 0x5A) := by
  decide

/-- The first and the last cursor. -/
theorem witness_FinalizeResult :
    (small .absorb 0).phase = .absorb ∧ (small .absorb 0).cursor.toNat ≤ 31 ∧ (small .absorb 31).cursor.toNat ≤ 31 := by
  decide

theorem witness_DigestHeldUntilInit :
    (awaiting .done (.command (cmd 0x4000))).phase = .done ∧
      step (awaiting .done (.command (cmd 0x4000))) = .next { small .done 0 with rej := .afterFinalize } ∧
      (∀ rest, (awaiting .done (.command (cmd 0x4000))).pending ≠ .reset :: rest) ∧
      ∀ c rest seed, (awaiting .done (.command (cmd 0x4000))).pending = .command c :: rest →
        decode c ≠ .ok (.init seed) := by
  refine ⟨rfl, rfl, fun rest h => (nomatch h), fun c rest seed h => ?_⟩
  cases h
  intro hd
  cases hd

theorem witness_CommandsOutsideAbsorbAreRejected :
    (Instr.ingest 0x61 = .ingest 0x61 ∨ Instr.ingest 0x61 = .ingestf 0x61 ∨ Instr.ingest 0x61 = .finalize) ∧
      (small .uninit 0).phase = .uninit ∧ (small .done 0).phase = .done :=
  ⟨.inl rfl, rfl, rfl⟩

/-- Each code with a state and a command that give it. -/
theorem witness_RejectCodesAreComplete :
    (awaiting .uninit (.command (cmd 0x2061))).pending = .command (cmd 0x2061) :: [] ∧
      step (awaiting .uninit (.command (cmd 0x2061))) = .next { small .uninit 0 with rej := .notInitialised } ∧
      step (awaiting .uninit (.command (cmd 0x5000))) = .next { small .uninit 0 with rej := .reservedEncoding } ∧
      step (awaiting .done (.command (cmd 0x3020))) = .next { small .done 0 with rej := .afterFinalize } :=
  ⟨rfl, rfl, rfl, rfl⟩

theorem witness_RejectChangesNoElement :
    step (awaiting .done (.command (cmd 0x2061))) = .next { small .done 0 with rej := .afterFinalize } ∧
      ({ small .done 0 with rej := .afterFinalize } : State).rej ≠ .accepted :=
  ⟨rfl, by decide⟩

theorem witness_StepKeepsInv : Inv State.reset ∧ step State.reset = .next State.reset := ⟨by decide, rfl⟩

/-- The last cursor of the range. -/
theorem witness_StepNeverStops : CursorInRange (small .absorb 31) := by decide

/-- The fault is raised at the first cursor beyond the buffer. -/
theorem witness_FaultOnlyBeyondBuffer : exec .finalize (small .absorb 32) = .fault .bufIndexOutOfRange := rfl

theorem witness_SeedChangedOnlyByInit :
    exec (.ingestf 0x20) (small .absorb 5) = .next (small .absorb 5) ∧ ∀ seed, Instr.ingestf 0x20 ≠ .init seed :=
  ⟨rfl, fun _ h => by cases h⟩

theorem witness_CounterCountsOneBlock : exec (.ingestf 0x20) (small .absorb 5) = .next (small .absorb 5) := rfl

theorem witness_PhaseMovesOnlySo :
    ∃ t, step (awaiting .uninit (.command (cmd 0x1000))) = .next t ∧
      t.phase ≠ (awaiting .uninit (.command (cmd 0x1000))).phase :=
  ⟨_, rfl, by decide⟩

/-- The four rotate amounts with the bits that stay and that go round. -/
theorem witness_RotlMovesBits : 0 < 5 ∧ 13 < 32 ∧ 0 < 32 ∧ 31 < 32 := by decide

/-- The last byte of a word and its last bit. -/
theorem witness_LittleEndianConversions : 3 < 4 ∧ 7 < 8 := by decide

theorem witness_SerialiseIsLittleEndian : serialise (Vector.replicate 8 0) = serialise (Vector.replicate 8 0) := rfl

/-- Another index; the clauses on the position have no hypotheses. -/
theorem witness_MushAddsKeyedRotation : (0 : Fin 12) ≠ 11 := by decide

/-- A Seed and the Seed with its first output-start word changed: vector X2. -/
theorem witness_MixOutputSeedLaw :
    (∀ k : Fin 24, (Config.seedValue.set 24 1)[k.val] = Config.seedValue[k.val]) ∧
      ∀ i : Fin 8, (Config.seedValue.set 24 1)[24 + i.val] =
        Config.seedValue[24 + i.val] ^^^ ((Vector.replicate 8 (0 : Word)).set 0 1)[i] := by
  decide

/-- A block and a Seed changed together: vector X10 in one word. -/
theorem witness_MixWhiteningLaw :
    (∀ i : Fin 12, (Vector.replicate 12 (0 : Word))[i] ^^^ Config.seedValue[12 + i.val] =
      ((Vector.replicate 12 (0 : Word)).set 0 1)[i] ^^^ (Config.seedValue.set 12 1)[12 + i.val]) ∧
      ∀ k : Fin 32, k.val < 12 ∨ 24 ≤ k.val → Config.seedValue[k] = (Config.seedValue.set 12 1)[k] := by
  decide

/-- The last step and the first number of steps at which a MIX is complete. -/
theorem witness_SteppedMixRefinesMix : 383 < 384 ∧ 384 ≤ 384 := by decide
theorem witness_RoundSumIsMultipleOfDelta : 0 < 384 ∧ 383 < 384 := by decide
theorem witness_AccumulatorIsLastWord : 0 ≤ 384 ∧ 384 ≤ 384 := by decide

/-- The state that INIT leaves after reset. -/
theorem witness_IngestExtendsStream : StreamState Config.seedValue [] (small .absorb 0) :=
  ⟨rfl, rfl, rfl, fun _ h => absurd h (Nat.not_lt_zero _), by decide, by decide⟩

theorem witness_ChunkingDoesNotMatter : StreamState Config.seedValue [] (small .absorb 0) :=
  witness_IngestExtendsStream

/-- The same state after a message of one space. -/
theorem witness_IngestfExtendsStream : StreamState Config.seedValue (filterBytes [0x20]) (small .absorb 0) :=
  witness_IngestExtendsStream

/-- Two ways to bring the byte 'f'. -/
theorem witness_DigestDependsOnReachedBytes :
    (∀ i ∈ [Instr.ingestf 0x46, .ingestf 0x20], isStore i = true) ∧ (∀ i ∈ [Instr.ingest 0x66], isStore i = true) ∧
      [Instr.ingestf 0x46, .ingestf 0x20].filterMap reaches = [Instr.ingest 0x66].filterMap reaches := by
  decide

/-- Two states with different bytes at the cursor. -/
theorem witness_StaleBytesAreNeverRead :
    SameStream (small .absorb 0) { small .absorb 0 with buf := Vector.replicate 32 0xAA } ∧
      (small .absorb 0).phase = .absorb ∧ CursorInRange (small .absorb 0) := by
  decide

theorem witness_FoldedIngestionIsFilteredIngestion : CursorInRange (small .absorb 31) := by decide

/-- The document's own pair of texts, "Foo Bar@x.com" and "foobar@x.com", and a text of blanks. -/
theorem witness_FoldedDigestIgnoresCaseAndBlanks :
    filterBytes [0x46, 0x6F, 0x6F, 0x20, 0x42, 0x61, 0x72, 0x40, 0x78, 0x2E, 0x63, 0x6F, 0x6D] =
      filterBytes [0x66, 0x6F, 0x6F, 0x62, 0x61, 0x72, 0x40, 0x78, 0x2E, 0x63, 0x6F, 0x6D] ∧
      ∀ c ∈ [(0x20 : Byte), 0x09], c = 0x20 ∨ c = 0x09 := by
  decide

theorem witness_PaddingIsInjective : padded [0x61] = padded [0x61] := rfl

end Sys2Proof.Tests
end

namespace Sys2Proof.Machine

/-! ## Words and bytes -/

/-- The rotation of the model is the library's (R6). -/
theorem rotl_eq_rotateLeft (x : Word) {b : Nat} (hb : b < 32) : rotl x b = x.rotateLeft b := by
  rw [rotl, BitVec.rotateLeft_def, Nat.mod_eq_of_lt hb]

/-- Settles O27: a bit moved past the top of the word comes back at the low end, any other bit moves up. -/
theorem rotlMovesBits : Obligations.RotlMovesBits := by
  intro x b k _ hb hk
  rw [rotl_eq_rotateLeft x hb, BitVec.getLsbD_rotateLeft, Nat.mod_eq_of_lt hb]
  rcases Nat.lt_or_ge (k + b) 32 with hstays | hwraps
  · have hpos : (k + b) % 32 = k + b := Nat.mod_eq_of_lt hstays
    simp [hpos, hstays]
  · have hpos : (k + b) % 32 = k + b - 32 := by omega
    have hlow : k + b - 32 < b := by omega
    have hbit : 32 - b + (k + b - 32) = k := by omega
    simp [hpos, hlow, hbit]

/-- A word with a byte put below it, as a number. -/
theorem toNat_append_byte {n : Nat} (w : BitVec n) (b : Byte) : (w ++ b).toNat = 2 ^ 8 * w.toNat + b.toNat := by
  rw [BitVec.toNat_append, ← Nat.shiftLeft_add_eq_or_of_lt b.isLt, Nat.shiftLeft_eq, Nat.mul_comm]

/-- A word of four bytes is their sum with weights `2^(8k)`, the first byte lowest (R7). -/
theorem leWord_toNat (b0 b1 b2 b3 : Byte) :
    (leWord b0 b1 b2 b3).toNat = b0.toNat + 2 ^ 8 * b1.toNat + 2 ^ 16 * b2.toNat + 2 ^ 24 * b3.toNat := by
  calc (leWord b0 b1 b2 b3).toNat
      = 2 ^ 8 * (2 ^ 8 * (2 ^ 8 * b3.toNat + b2.toNat) + b1.toNat) + b0.toNat := by
        rw [← toNat_append_byte, ← toNat_append_byte, ← toNat_append_byte, leWord]
    _ = b0.toNat + 2 ^ 8 * b1.toNat + 2 ^ 16 * b2.toNat + 2 ^ 24 * b3.toNat := by omega

/-- Bit `n` of byte `k` of a word (R7). -/
theorem leByte_getLsbD (w : Word) (k : Nat) {n : Nat} (hn : n < 8) :
    (leByte w k).getLsbD n = w.getLsbD (8 * k + n) := by
  simp [leByte, hn]

/-- Settles O28: the bytes are appended one below the other, and extracted by their bit positions. -/
theorem littleEndianConversions : Obligations.LittleEndianConversions :=
  ⟨leWord_toNat, fun w k _ _ hn => leByte_getLsbD w k hn⟩

end Sys2Proof.Machine

namespace Sys2Proof.Machine

/-! ## The counter and the digest sum of a stream -/

/-- The counter words above the lowest move on exactly when the word below them wraps (R93). -/
theorem succ_div_word (n : Nat) :
    (n + 1) / 2 ^ 32 = if wrapped (BitVec.ofNat 32 n + 1) then n / 2 ^ 32 + 1 else n / 2 ^ 32 := by
  have hwrap : wrapped (BitVec.ofNat 32 n + 1) = true ↔ (n + 1) % 2 ^ 32 = 0 := by
    rw [wrapped, beq_iff_eq, ← BitVec.toNat_inj]
    simp
  split
  next h => have := hwrap.mp h; omega
  next h => have := mt hwrap.mpr h; omega

/-- CTRINC on four words, the carry going from each to the next (R93). -/
theorem incCounter_mk (w0 w1 w2 w3 : Word) : incCounter #v[w0, w1, w2, w3] =
    if wrapped (w0 + 1) then
      if wrapped (w1 + 1) then
        if wrapped (w2 + 1) then #v[w0 + 1, w1 + 1, w2 + 1, w3 + 1] else #v[w0 + 1, w1 + 1, w2 + 1, w3]
      else #v[w0 + 1, w1 + 1, w2, w3]
    else #v[w0 + 1, w1, w2, w3] := rfl

/-- Counting a block after block number `q` (R93, R108). -/
theorem incCounter_counterWords (q : Nat) : incCounter (counterWords q) = counterWords (q + 1) := by
  have h64 (n : Nat) : n / 2 ^ 64 = n / 2 ^ 32 / 2 ^ 32 := by omega
  have h96 (n : Nat) : n / 2 ^ 96 = n / 2 ^ 32 / 2 ^ 32 / 2 ^ 32 := by omega
  have hsucc (n : Nat) : BitVec.ofNat 32 (n + 1) = BitVec.ofNat 32 n + 1 := BitVec.ofNat_add n 1
  simp only [counterWords, h64, h96, incCounter_mk, succ_div_word q]
  split
  · simp only [succ_div_word (q / 2 ^ 32)]
    split
    · simp only [succ_div_word (q / 2 ^ 32 / 2 ^ 32)]
      split <;> simp only [hsucc]
    · simp only [hsucc]
  · simp only [hsucc]

/-- Bytes after a block do not change its words (R108). -/
theorem streamBlock_append (p e : List Byte) {r : Nat} (h : 32 * (r + 1) ≤ p.length) :
    streamBlock (p ++ e) (r + 1) = streamBlock p (r + 1) := by
  have hget (n : Nat) (hn : n < 32 * (r + 1)) : (p ++ e).getD n 0 = p.getD n 0 :=
    List.getD_append _ _ _ _ (by omega)
  have hword (j : Fin 8) : streamWord (p ++ e) (r + 1) j = streamWord p (r + 1) j := by
    simp only [streamWord]
    rw [hget, hget, hget, hget] <;> omega
  simp only [streamBlock, hword]

/-- Bytes after the first `q` blocks do not count in their sum (R108). -/
theorem streamSum_append (seed : Seed) (p e : List Byte) {q : Nat} (h : 32 * q ≤ p.length) :
    streamSum seed (p ++ e) q = streamSum seed p q := by
  have hlane (j : Fin 8) : (List.range q).map (fun r => (mix (streamBlock (p ++ e) (r + 1)) seed)[j]) =
      (List.range q).map fun r => (mix (streamBlock p (r + 1)) seed)[j] :=
    List.map_congr_left fun r hr => by
      have := List.mem_range.mp hr
      rw [streamBlock_append p e (by omega)]
  simp only [streamSum, hlane]

/-- The sum over one block more (R94, R108). -/
theorem streamSum_succ (seed : Seed) (p : List Byte) (q : Nat) :
    streamSum seed p (q + 1) = addLanes (streamSum seed p q) (mix (streamBlock p (q + 1)) seed) := by
  ext j hj : 1
  simp [streamSum, addLanes, List.range_succ]

/-- A buffer that holds the bytes of block number `q + 1` gives, with that block's counter, that block (R24, R108). -/
theorem blockView_eq_streamBlock {buf : Buffer} {p : List Byte} {q : Nat}
    (h : ∀ k : Fin 32, bufByte buf k = p.getD (32 * q + k.val) 0) :
    blockView buf (counterWords (q + 1)) = streamBlock p (q + 1) := by
  have hbyte (n : Nat) (hn : n < 32) : buf[n] = p.getD (32 * q + n) 0 := h ⟨n, hn⟩
  have hword (j : Fin 8) : dataWord buf j = streamWord p (q + 1) j := by
    simp only [dataWord, streamWord, hbyte, Nat.add_sub_cancel, Nat.add_assoc]
  simp only [blockView, streamBlock, hword]

/-! ## What PUT and the padding do to the message held (R34) -/

section

variable {seed : Seed} {m : List Byte} {s : State}

/-- Any outputs and anything pending may stand beside the message held. -/
theorem StreamState.after_accept (h : StreamState seed m s) : StreamState seed m (accept s) :=
  ⟨h.inAbsorbPhase, h.seedHeld, h.cursor, h.buffered, h.counter, h.sums⟩

theorem StreamState.cursor_le (h : StreamState seed m s) :
    s.cursor.toNat ≤ 31 := by
  have := h.cursor
  omega

/-- After the store of PUT the buffer holds the pending bytes of the message and the new byte. -/
theorem StreamState.buffered_memWrite (h : StreamState seed m s) (b : Byte)
    (k : Fin 32) (hk : k.val ≤ m.length % 32) :
    bufByte (memWrite (m.length % 32) b s).buf k = (m ++ [b]).getD (32 * (m.length / 32) + k.val) 0 := by
  rcases Nat.lt_or_eq_of_le hk with hlt | heq
  · rw [bufByte_memWrite_of_ne (by omega), h.buffered k hlt, List.getD_append _ _ _ _ (by omega)]
  · have hend : 32 * (m.length / 32) + m.length % 32 = m.length := Nat.div_add_mod _ _
    rw [← heq, bufByte_memWrite_same, heq, hend, List.getD_append_right _ _ _ _ (Nat.le_refl _)]
    simp

/-- PUT with room left after it brings one byte to the message held (R34, R91). -/
theorem StreamState.after_putByte_of_lt (h : StreamState seed m s) (b : Byte)
    (hroom : m.length % 32 < 31) : StreamState seed (m ++ [b]) (putByte b s) := by
  have hlen : (m ++ [b]).length = m.length + 1 := by simp
  have hmod : (m ++ [b]).length % 32 = m.length % 32 + 1 := by omega
  have hdiv : (m ++ [b]).length / 32 = m.length / 32 := by omega
  rw [putByte_of_lt (h.cursor ▸ hroom)]
  constructor
  case inAbsorbPhase => exact h.inAbsorbPhase
  case seedHeld => exact h.seedHeld
  case cursor => rw [setCursor_cursor, cursor_succ_toNat h.cursor_le, h.cursor, hmod]
  case buffered =>
    intro k hk
    rw [hdiv, setCursor_buf, h.cursor]
    exact h.buffered_memWrite b k (by omega)
  case counter => rw [hdiv, setCursor_ctr, memWrite_ctr, h.counter]
  case sums => rw [hdiv, setCursor_sum, memWrite_sum, h.sums, streamSum_append seed m [b] (Nat.mul_div_le _ _)]

/-- PUT of the byte that fills the buffer brings it too, and the flush counts and sums the block it completes (R34, R92). -/
theorem StreamState.after_putByte_of_last (h : StreamState seed m s) (b : Byte)
    (hlast : m.length % 32 = 31) : StreamState seed (m ++ [b]) (putByte b s) := by
  have hlen : (m ++ [b]).length = m.length + 1 := by simp
  have hmod : (m ++ [b]).length % 32 = 0 := by omega
  have hdiv : (m ++ [b]).length / 32 = m.length / 32 + 1 := by omega
  have hblock : blockView (memWrite 31 b s).buf (counterWords (m.length / 32 + 1)) =
      streamBlock (m ++ [b]) (m.length / 32 + 1) :=
    blockView_eq_streamBlock fun k => hlast ▸ h.buffered_memWrite b k (by omega)
  rw [putByte_of_last (h.cursor.trans hlast)]
  constructor
  case inAbsorbPhase => simpa using h.inAbsorbPhase
  case seedHeld => simpa using h.seedHeld
  case cursor => rw [hmod, flush_cursor]; rfl
  case buffered => intro k hk; omega
  case counter => rw [hdiv, flush_ctr, setCursor_ctr, memWrite_ctr, h.counter, incCounter_counterWords]
  case sums =>
    rw [flush_sum, hdiv, streamSum_succ, streamSum_append seed m [b] (Nat.mul_div_le _ _), ← hblock]
    simp only [setCursor_sum, setCursor_buf, setCursor_ctr, setCursor_seed, memWrite_sum, memWrite_ctr, memWrite_seed,
      h.sums, h.counter, h.seedHeld, incCounter_counterWords]

/-- PUT brings one byte to the message held. -/
theorem StreamState.after_putByte (h : StreamState seed m s) (b : Byte) :
    StreamState seed (m ++ [b]) (putByte b s) := by
  rcases Nat.lt_or_ge (m.length % 32) 31 with hroom | hlast
  · exact h.after_putByte_of_lt b hroom
  · exact h.after_putByte_of_last b (by omega)

/-- The padding loop brings zero bytes up to the block boundary, if its fuel reaches that far (R98, R101). -/
theorem StreamState.after_padLoop {n fuel : Nat} (h : StreamState seed m s)
    (hn : n ≤ 31) (hboundary : (m.length + n) % 32 = 0) (hfuel : n ≤ fuel) :
    StreamState seed (m ++ List.replicate n Config.pad) (padLoop fuel s) := by
  induction n generalizing m s fuel with
  | zero =>
    have hzero : s.cursor = 0 := BitVec.eq_of_toNat_eq (by rw [h.cursor]; simpa using hboundary)
    simpa [padLoop_of_zero_cursor hzero] using h
  | succ n ih =>
    obtain ⟨fuel, rfl⟩ : ∃ f, fuel = f + 1 := ⟨fuel - 1, by omega⟩
    have hnonzero : s.cursor ≠ 0 := by
      intro hzero
      have := h.cursor
      simp [hzero] at this
      omega
    rw [padLoop_succ_of_nonzero hnonzero, List.replicate_succ, List.append_cons]
    exact ih (h.after_putByte Config.pad) (by omega) (by simp; omega) (by omega)

/-- The end of a message brings the end marker and the padding: what is held then is the padded message (R98, R108). -/
theorem StreamState.after_closeStream (h : StreamState seed m s) :
    StreamState seed (padded m) (closeStream s) :=
  (h.after_putByte Config.endMark).after_padLoop (by omega)
    (by simp only [List.length_append, List.length_singleton]; omega) (by simp only [Config.maxPadding]; omega)

theorem padded_length (m : List Byte) : (padded m).length = 32 * blockCount m := by
  simp only [padded, blockCount, List.length_append, List.length_singleton, List.length_replicate]
  omega

end

/-! ## The commands of a message -/

section

variable {seed : Seed} {m : List Byte} {s : State}

@[simp] theorem exec_init (seed : Seed) (s : State) : exec (.init seed) s = execInit seed s := rfl
@[simp] theorem exec_ingest (b : Byte) (s : State) : exec (.ingest b) s = execIngest b s := rfl
@[simp] theorem exec_ingestf (b : Byte) (s : State) : exec (.ingestf b) s = execIngestf b s := rfl
@[simp] theorem exec_finalize (s : State) : exec .finalize s = execFinalize s := rfl

/-- INIT opens the empty message, from any state (R34, R90). -/
theorem exec_init_opens_stream (seed : Seed) (s : State) :
    ∃ t, exec (.init seed) s = .next t ∧ StreamState seed [] t := by
  refine ⟨_, rfl, rfl, rfl, rfl, fun k hk => absurd hk (Nat.not_lt_zero _), rfl, ?_⟩
  rw [List.length_nil, Nat.zero_div]
  ext j hj : 1
  simp [streamSum]

/-- The store of a byte, under PUT's precondition, which every message held meets. -/
theorem StreamState.after_storeByte (h : StreamState seed m s) (b : Byte) :
    ∃ t, storeByte b s = .next t ∧ StreamState seed (m ++ [b]) t :=
  ⟨_, withRoom_of_le h.cursor_le, h.after_putByte b⟩

/-- INGEST and INGESTF bring to the message held the byte that reaches the buffer, if one does (R12, R95, R97). -/
theorem StreamState.exec_store (h : StreamState seed m s) {i : Instr}
    (hi : isStore i = true) :
    ∃ t, exec i s = .next t ∧ StreamState seed (m ++ (reaches i).toList) t := by
  cases i with
  | init _ => cases hi
  | finalize => cases hi
  | ingest b =>
    rw [exec_ingest, execIngest, inAbsorb_of_absorb h.inAbsorbPhase]
    exact h.after_accept.after_storeByte b
  | ingestf b =>
    rw [exec_ingestf, execIngestf, inAbsorb_of_absorb h.inAbsorbPhase, storeFiltered, reaches]
    cases filterByte b with
    | drop => exact ⟨_, rfl, by simpa [Filtered.toOption] using h.after_accept⟩
    | keep c => exact h.after_accept.after_storeByte c

/-- A list of such commands brings the bytes that reach the buffer, in order (R12). -/
theorem StreamState.execAll_stores (h : StreamState seed m s) {is : List Instr}
    (his : ∀ i ∈ is, isStore i = true) :
    ∃ t, execAll is s = .next t ∧ StreamState seed (m ++ is.filterMap reaches) t := by
  induction is generalizing m s with
  | nil => exact ⟨s, rfl, by simpa using h⟩
  | cons i is ih =>
    obtain ⟨hi, hrest⟩ := List.forall_mem_cons.mp his
    obtain ⟨u, hu, hstream⟩ := h.exec_store hi
    obtain ⟨t, ht, hend⟩ := ih hstream hrest
    refine ⟨t, by rw [execAll_cons, hu, andThen_next, ht], ?_⟩
    have hbytes : (i :: is).filterMap reaches = (reaches i).toList ++ is.filterMap reaches := by
      cases hr : reaches i <;> simp [hr]
    rwa [hbytes, ← List.append_assoc]

/-- FINALIZE in a message: the stream is closed and the digest emitted (R98). -/
theorem StreamState.exec_finalize_eq (h : StreamState seed m s) :
    exec .finalize s = .next (emitDigest (closeStream (accept s))) := by
  rw [exec_finalize, execFinalize, inAbsorb_of_absorb h.inAbsorbPhase, withRoom_of_le h.after_accept.cursor_le]

/-- In `DONE` the host reads the digest register (R30). -/
theorem hostDigest_of_done (h : s.phase = .done) : hostDigest s = some s.digest := by
  simp [hostDigest, h]

/-- The digest of a padded message that has been brought whole is the closed form (R106, R108). -/
theorem StreamState.hostDigest_emitDigest (h : StreamState seed (padded m) s) :
    hostDigest (emitDigest s) = some (digestOf seed m) := by
  have hblocks : (padded m).length / 32 = blockCount m := by rw [padded_length]; omega
  rw [hostDigest_of_done (emitDigest_phase s), emitDigest_digest]
  simp only [h.sums, h.seedHeld, hblocks, digestOf]

end

/-- Commands one after the other in two parts (R48). -/
theorem execAll_append (is js : List Instr) (s : State) :
    execAll (is ++ js) s = andThen (execAll is s) (execAll js) := by
  induction is generalizing s with
  | nil => rfl
  | cons i is ih =>
    rw [List.cons_append, execAll_cons, execAll_cons]
    cases exec i s with
    | next u => simpa using ih u
    | fault e => rfl
    | refused e => rfl

/-- INIT, any commands that bring bytes and FINALIZE give, from any state, the closed form of the bytes
brought (R12, R108). -/
theorem execAll_stores_digest (seed : Seed) {is : List Instr} (his : ∀ i ∈ is, isStore i = true) (s : State) :
    ∃ t, execAll (.init seed :: (is ++ [.finalize])) s = .next t ∧
      hostDigest t = some (digestOf seed (is.filterMap reaches)) := by
  obtain ⟨u, hinit, hopen⟩ := exec_init_opens_stream seed s
  obtain ⟨v, hstores, hstream⟩ := hopen.execAll_stores his
  refine ⟨_, ?_, hstream.after_accept.after_closeStream.hostDigest_emitDigest⟩
  simp only [execAll_cons, execAll_append, execAll_nil, hinit, hstores, hstream.exec_finalize_eq, andThen_next]

/-- Settles O46: both runs end in the closed form of the bytes brought, which are the same. -/
theorem digestDependsOnReachedBytes : Obligations.DigestDependsOnReachedBytes := by
  intro seed is is' s s' his his' hbytes
  obtain ⟨t, hrun, hdigest⟩ := execAll_stores_digest seed his s
  obtain ⟨t', hrun', hdigest'⟩ := execAll_stores_digest seed his' s'
  exact ⟨t, t', hrun, hrun', by rw [hdigest, hdigest', hbytes], hdigest⟩

end Sys2Proof.Machine

namespace Sys2Proof

/-! ## The opcode map -/

/-- The row of the opcode map that selects an instruction, with its mask, its match and its operand (R62, R63, R68). -/
def SelectedBy (c : Command) : Instr → Prop
  | .init seed => c.word &&& 0xFFFF = 0x1000 ∧ seed = c.seedIn
  | .ingest b => c.word &&& 0xFF00 = 0x2000 ∧ b = c.word.extractLsb' 0 8
  | .ingestf b => c.word &&& 0xFF00 = 0x3000 ∧ b = c.word.extractLsb' 0 8
  | .finalize => c.word &&& 0xFFFF = 0x4000

/-- A match under the full mask is a match of its high byte under the mask of the byte commands. This keeps the rows
of the opcode map apart: the high bytes of the four matches differ (R62). -/
theorem highByte_of_fullMask {w m : CommandWord} (h : w &&& 0xFFFF = m) : w &&& 0xFF00 = m &&& 0xFF00 := by
  rw [← h, BitVec.and_assoc]
  rfl

/-- What a word decodes to stands in the row that selects it: the branch of the decoder that answered says so. -/
theorem selectedBy_of_decode {c : Command} {i : Instr} (h : decode c = .ok i) : SelectedBy c i := by
  unfold decode at h
  split at h
  next hrow => cases h; exact ⟨hrow, rfl⟩
  split at h
  next hrow => cases h; exact ⟨hrow, rfl⟩
  split at h
  next hrow => cases h; exact ⟨hrow, rfl⟩
  split at h
  next hrow => cases h; exact hrow
  next => cases h

/-- A word that a row selects decodes to the instruction of that row: no row tried before it matches. -/
theorem decode_of_selectedBy {c : Command} {i : Instr} (h : SelectedBy c i) : decode c = .ok i := by
  cases i with
  | init seed =>
    obtain ⟨hrow, rfl⟩ := h
    exact if_pos hrow
  | ingest b =>
    obtain ⟨hrow, rfl⟩ := h
    have hinit : c.word &&& 0xFFFF ≠ 0x1000 := mt highByte_of_fullMask (hrow.trans_ne (by decide))
    rw [decode, if_neg hinit, if_pos hrow, byteOperand]
  | ingestf b =>
    obtain ⟨hrow, rfl⟩ := h
    have hinit : c.word &&& 0xFFFF ≠ 0x1000 := mt highByte_of_fullMask (hrow.trans_ne (by decide))
    have hingest : c.word &&& 0xFF00 ≠ 0x2000 := hrow.trans_ne (by decide)
    rw [decode, if_neg hinit, if_neg hingest, if_pos hrow, byteOperand]
  | finalize =>
    have hrow : c.word &&& 0xFFFF = 0x4000 := h
    have hhigh : c.word &&& 0xFF00 = 0x4000 := highByte_of_fullMask hrow
    have hinit : c.word &&& 0xFFFF ≠ 0x1000 := hrow.trans_ne (by decide)
    have hingest : c.word &&& 0xFF00 ≠ 0x2000 := hhigh.trans_ne (by decide)
    have hingestf : c.word &&& 0xFF00 ≠ 0x3000 := hhigh.trans_ne (by decide)
    rw [decode, if_neg hinit, if_neg hingest, if_neg hingestf, if_pos hrow]

/-- The decoder is the opcode map: a command decodes to an instruction exactly when that instruction's row selects
it (R62). -/
theorem decode_eq_ok_iff (c : Command) (i : Instr) : decode c = .ok i ↔ SelectedBy c i :=
  ⟨selectedBy_of_decode, decode_of_selectedBy⟩

/-- Settles O7: each clause is one row of the opcode map. -/
theorem decodeFollowsOpcodeMap : Obligations.DecodeFollowsOpcodeMap := fun c =>
  ⟨fun seed => decode_eq_ok_iff c (.init seed), fun b => decode_eq_ok_iff c (.ingest b),
    fun b => decode_eq_ok_iff c (.ingestf b), decode_eq_ok_iff c .finalize⟩

end Sys2Proof

namespace Sys2Proof.Machine

/-! ## The pseudo-instructions -/

@[simp] theorem expand_ingests (text : List Byte) : (AsmLine.ingests text).expand = text.map .ingest := rfl
@[simp] theorem expand_ingestfs (text : List Byte) : (AsmLine.ingestfs text).expand = text.map .ingestf := rfl

/-- HASH is INIT, INGESTS and FINALIZE; its INIT is the plain one (R66, R67). -/
theorem expand_hash (text : List Byte) : (AsmLine.hash text).expand =
    (AsmLine.init Config.seedValue).expand ++ (AsmLine.ingests text).expand ++ AsmLine.finalize.expand := rfl

/-- HASHF is INIT, INGESTFS and FINALIZE; its INIT is the plain one (R66, R67). -/
theorem expand_hashf (text : List Byte) : (AsmLine.hashf text).expand =
    (AsmLine.init Config.seedValue).expand ++ (AsmLine.ingestfs text).expand ++ AsmLine.finalize.expand := rfl

/-- Settles O52: the four expansions, the Seed of a plain INIT being the all-zero one. -/
theorem pseudoInstructionsExpand : Obligations.PseudoInstructionsExpand := fun text =>
  ⟨expand_ingests text, expand_ingestfs text, expand_hash text, expand_hashf text⟩

end Sys2Proof.Machine

namespace Sys2Proof.Machine

/-! ## What the parts of MIX are (R71 to R76) -/

section

variable (block : Block) (seed : Seed) (i : Fin 12) (b : Nat) (m : MixState)

theorem mixSetup_t (j : Fin 12) : (mixSetup block seed).t[j] = block[j] ^^^ whitenKey seed j := by
  simp [mixSetup, whiten]

@[simp] theorem mixSetup_x : (mixSetup block seed).x = block[11] ^^^ whitenKey seed 11 := mixSetup_t block seed 11

@[simp] theorem mixSetup_rsum : (mixSetup block seed).rsum = 0 := rfl

theorem mixSetup_out (j : Fin 8) : (mixSetup block seed).out[j] = outKey seed j := by
  simp [mixSetup]

/-- The new accumulator, with the grouping of C2 (R74). -/
theorem mush_x :
    (mush seed i b m).x = m.t[i] + (((m.x ^^^ stepKey seed i) + m.rsum) ^^^ rotl m.x b) := rfl

/-- A step writes the new accumulator to its working word (R74). -/
theorem mush_t_same : (mush seed i b m).t[i] = (mush seed i b m).x := by
  simp [mush_t]

/-- A step leaves the other working words (R74). -/
theorem mush_t_of_ne {i j : Fin 12} (h : j ≠ i) : (mush seed i b m).t[j] = m.t[j] := by
  have hval : i.val ≠ j.val := fun heq => h (Fin.ext heq.symm)
  simp [mush_t, Vector.getElem_set_ne, hval]

/-- The advance with the constant last, as R73 writes it. -/
theorem advanceRsum_eq : advanceRsum m = { m with rsum := m.rsum + 0x9e3779b9 } := by
  rw [advanceRsum, BitVec.add_comm]

/-- The rotate amounts by index modulo 4 (R75). -/
theorem rotOf_eq : rotOf i =
    if i.val % 4 = 0 then 5 else if i.val % 4 = 1 then 7 else if i.val % 4 = 2 then 9 else 13 := by
  revert i
  decide

/-- Where a position stands: within an inner round, at the end of one that another follows, or at the end of an
outer round (R84). -/
theorem MixPos.idx_rnd_cases (p : MixPos) :
    p.idx.val < 11 ∨ (p.idx.val = 11 ∧ p.rnd.val < 15) ∨ (p.idx.val = 11 ∧ p.rnd.val = 15) := by
  omega

/-- The working values after one step of a MIX in progress: the fold comes after the last step of an outer round
only (R77, R84). -/
theorem mixAdvance_mix (p : MixPos) : (mixAdvance seed ⟨m, some p⟩).mix =
    if p.idx = 11 ∧ p.rnd = 15 then foldOut (mixStepAt seed p m) else mixStepAt seed p m := by
  rcases p.idx_rnd_cases with hidx | ⟨hidx, hrnd⟩ | ⟨hidx, hrnd⟩
  · have hnot : ¬(p.idx = 11 ∧ p.rnd = 15) := by simp only [Fin.ext_iff]; omega
    rw [mixAdvance_of_idx_lt seed m hidx, if_neg hnot]
  · have hnot : ¬(p.idx = 11 ∧ p.rnd = 15) := by simp only [Fin.ext_iff]; omega
    rw [mixAdvance_of_rnd_lt seed m hidx hrnd, if_neg hnot]
  · have hlast : p.idx = 11 ∧ p.rnd = 15 := ⟨Fin.ext hidx, Fin.ext hrnd⟩
    rw [mixAdvance_of_last seed m hidx hrnd, if_pos hlast]

/-- The steps of an inner round with their rotate amounts written beside them (R75, R76). -/
theorem innerRound_eq_foldl : innerRound seed m =
    (stepOrder.map fun i => (i, rotOf i)).foldl (fun m p => mush seed p.1 p.2 m) (advanceRsum m) := by
  rw [List.foldl_map, innerRound]

end

/-- Settles O33: the set-up written with the Seed's indices. -/
theorem mixSetupWhitens : Obligations.MixSetupWhitens := fun block seed =>
  ⟨mixSetup_t block seed, mixSetup_out block seed, mixSetup_x block seed, mixSetup_rsum block seed⟩

/-- Settles O34: the step by its equations, its place in a MIX by the position, and the table of R75 in order. -/
theorem mushAddsKeyedRotation : Obligations.MushAddsKeyedRotation := by
  refine ⟨fun seed i b m => ?_, fun seed p m => ?_, fun seed m => ?_⟩
  · exact ⟨mush_t_same seed i b m, mush_x seed i b m, fun j hj => mush_t_of_ne seed b m hj, rfl, rfl⟩
  · simp only [mixAdvance_mix, mixStepAt, rotOf_eq, advanceRsum_eq]
  · rw [innerRound_eq_foldl, advanceRsum_eq]
    rfl

/-! ## What MIX reads of its operands (R81, R82) -/

section

variable {block block' : Block} {seed seed' : Seed}

/-- The set-up sees the block and the whitening words only whitened (R71). -/
theorem mixSetup_congr (hwhite : ∀ i : Fin 12, block[i] ^^^ whitenKey seed i = block'[i] ^^^ whitenKey seed' i)
    (hout : ∀ i : Fin 8, outKey seed i = outKey seed' i) : mixSetup block seed = mixSetup block' seed' := by
  have hwhiten : whiten block seed = whiten block' seed' := congrArg Vector.ofFn (funext hwhite)
  simp only [mixSetup, hwhiten, hout]

/-- The rounds see of the Seed the step keys alone (R74, R78). -/
theorem outerRound_congr (hkeys : ∀ i : Fin 12, stepKey seed i = stepKey seed' i) :
    outerRound seed = outerRound seed' := by
  have hmush : mush seed = mush seed' := by
    funext i b m
    simp only [mush, hkeys]
  have hinner : innerRound seed = innerRound seed' := by
    funext m
    simp only [innerRound, hmush]
  funext m
  simp only [outerRound, hinner]

/-- The same working values with `d` exclusive-ored into the output being formed. -/
def xorOut (d : Lanes) (m : MixState) : MixState :=
  { m with out := Vector.ofFn fun i : Fin 8 => m.out[i] ^^^ d[i] }

theorem xorOut_out (d : Lanes) (m : MixState) (i : Fin 8) : (xorOut d m).out[i] = m.out[i] ^^^ d[i] := by
  simp [xorOut]

/-- Steps neither read nor write the output (R74). -/
theorem foldl_mush_xorOut (seed : Seed) (d : Lanes) (l : List (Fin 12)) (m : MixState) :
    l.foldl (fun m i => mush seed i (rotOf i) m) (xorOut d m) =
      xorOut d (l.foldl (fun m i => mush seed i (rotOf i) m) m) := by
  induction l generalizing m with
  | nil => rfl
  | cons i l ih => exact ih (mush seed i (rotOf i) m)

theorem innerRound_xorOut (seed : Seed) (d : Lanes) : Function.Commute (innerRound seed) (xorOut d) :=
  fun m => foldl_mush_xorOut seed d stepOrder (advanceRsum m)

/-- The fold only exclusive-ors into the output (R77). -/
theorem foldOut_xorOut (d : Lanes) : Function.Commute foldOut (xorOut d) := by
  intro m
  have hlane (i : Fin 8) : (xorOut d m).out[i] ^^^ m.t[i.val + 4] = (foldOut m).out[i] ^^^ d[i] := by
    rw [xorOut_out, foldOut_out, BitVec.xor_assoc, BitVec.xor_comm d[i], BitVec.xor_assoc]
  exact congrArg (fun f => { m with out := Vector.ofFn f }) (funext hlane)

theorem outerRound_xorOut (seed : Seed) (d : Lanes) : Function.Commute (outerRound seed) (xorOut d) :=
  (foldOut_xorOut d).comp_left ((innerRound_xorOut seed d).iterate_left Config.innerRounds)

/-- Exclusive-or on the output-start words is exclusive-or on the output of the set-up (R71). -/
theorem mixSetup_eq_xorOut {d : Lanes} (hwhite : ∀ i : Fin 12, whitenKey seed' i = whitenKey seed i)
    (hout : ∀ i : Fin 8, outKey seed' i = outKey seed i ^^^ d[i]) :
    mixSetup block seed' = xorOut d (mixSetup block seed) := by
  have hwhiten : whiten block seed' = whiten block seed := by simp only [whiten, hwhite]
  have hlane (i : Fin 8) : outKey seed' i = (mixSetup block seed).out[i] ^^^ d[i] := by
    rw [mixSetup_out, hout]
  simp only [mixSetup, hwhiten, hlane, xorOut]

end

/-- Settles O36: the exclusive-or goes into the output at the set-up and passes through both outer rounds. -/
theorem mixOutputSeedLaw : Obligations.MixOutputSeedLaw := by
  intro block seed seed' d hrest hout i
  have hkeys (k : Fin 12) : stepKey seed' k = stepKey seed k := hrest (k.castLE (by decide))
  have hwhite (k : Fin 12) : whitenKey seed' k = whitenKey seed k := hrest (k.natAdd 12)
  have hrounds := (outerRound_xorOut seed d).iterate_left Config.outerRounds (mixSetup block seed)
  rw [mix, mix, outerRound_congr hkeys, mixSetup_eq_xorOut hwhite hout, hrounds, xorOut_out]

/-- Settles O37: the two set-ups agree, and so do the rounds. -/
theorem mixWhiteningLaw : Obligations.MixWhiteningLaw := by
  intro block block' seed seed' hwhite hrest
  have hkeys (i : Fin 12) : stepKey seed i = stepKey seed' i := hrest (i.castLE (by decide)) (.inl i.isLt)
  have hout (i : Fin 8) : outKey seed i = outKey seed' i := hrest (i.natAdd 24) (.inr (Nat.le_add_right 24 i.val))
  rw [mix, mix, mixSetup_congr hwhite hout, outerRound_congr hkeys]

/-! ## A MIX by its position (R84, R85) -/

section

variable (block : Block) (seed : Seed) (m : MixState)

/-- The position of step number `n`, counted from 0 (R84). -/
def posAt (n : Nat) : MixPos := ⟨Fin.ofNat 2 (n / 192), Fin.ofNat 16 (n / 12), Fin.ofNat 12 n⟩

theorem posAt_idx_val (n : Nat) : (posAt n).idx.val = n % 12 := rfl
theorem posAt_rnd_val (n : Nat) : (posAt n).rnd.val = n / 12 % 16 := rfl
theorem posAt_loop_val (n : Nat) : (posAt n).loop.val = n / 192 % 2 := rfl

theorem posAt_idx_eq_zero_iff (n : Nat) : (posAt n).idx = 0 ↔ n % 12 = 0 := Fin.ext_iff

/-- A position is a step number written in the base of the loops (R84). -/
theorem mk_eq_posAt {loop : Fin 2} {rnd : Fin 16} {idx : Fin 12} {n : Nat} (hloop : loop.val = n / 192 % 2)
    (hrnd : rnd.val = n / 12 % 16) (hidx : idx.val = n % 12) : (⟨loop, rnd, idx⟩ : MixPos) = posAt n :=
  (MixPos.mk.injEq ..).mpr ⟨Fin.ext hloop, Fin.ext hrnd, Fin.ext hidx⟩

/-- Each step of a MIX but the last moves to the position of the next step number (R84). -/
theorem mixAdvance_posAt {r : MixRun} {n : Nat} (hpos : r.pos = some (posAt n)) (hn : n + 1 < 384) :
    (mixAdvance seed r).pos = some (posAt (n + 1)) := by
  obtain ⟨m, _⟩ := r
  cases hpos
  have hloop := posAt_loop_val n
  have hrnd := posAt_rnd_val n
  have hidx := posAt_idx_val n
  rcases (posAt n).idx_rnd_cases with h | ⟨h, h'⟩ | ⟨h, h'⟩
  · rw [mixAdvance_of_idx_lt seed m h]
    have hnext : ((posAt n).idx + 1).val = (posAt n).idx.val + 1 := Fin.val_add_one_of_lt' (by omega)
    exact congrArg some (mk_eq_posAt (by omega) (by omega) (by omega))
  · rw [mixAdvance_of_rnd_lt seed m h h']
    have hnext : ((posAt n).rnd + 1).val = (posAt n).rnd.val + 1 := Fin.val_add_one_of_lt' (by omega)
    exact congrArg some (mk_eq_posAt (by omega) (by omega) (by omega))
  · have hfirst : (posAt n).loop = 0 := Fin.ext (by omega)
    rw [mixAdvance_of_last seed m h h', if_pos hfirst]
    exact congrArg some (mk_eq_posAt (by omega) (by omega) (by omega))

/-- Before step number `n` a MIX stands at that step's position (R83, R84). -/
theorem iterate_mixAdvance_pos {n : Nat} (hn : n < 384) :
    ((mixAdvance seed)^[n] (mixStart block seed)).pos = some (posAt n) := by
  induction n with
  | zero => rfl
  | succ n ih =>
    rw [Function.iterate_succ_apply']
    exact mixAdvance_posAt seed (ih (by omega)) hn

/-- A step moves the round sum on at index 0 only (R73). -/
theorem mixStepAt_rsum (p : MixPos) :
    (mixStepAt seed p m).rsum = if p.idx = 0 then Config.delta + m.rsum else m.rsum := by
  rw [mixStepAt, mush_rsum, apply_ite MixState.rsum, advanceRsum_rsum]

/-- The fold after a step leaves the round sum that the step left (R77). -/
theorem mixAdvance_rsum {r : MixRun} {p : MixPos} (h : r.pos = some p) :
    (mixAdvance seed r).mix.rsum = if p.idx = 0 then Config.delta + r.mix.rsum else r.mix.rsum := by
  obtain ⟨m, _⟩ := r
  cases h
  rw [mixAdvance_mix, ← mixStepAt_rsum]
  split
  · exact foldOut_rsum _
  · rfl

/-- A multiple of DELTA and once more DELTA (R85). -/
theorem delta_add_mul (k : Nat) :
    Config.delta + BitVec.ofNat 32 (k * 0x9e3779b9) = BitVec.ofNat 32 ((k + 1) * 0x9e3779b9) := by
  rw [Nat.succ_mul, BitVec.ofNat_add]
  exact BitVec.add_comm _ _

/-- After `n` steps the round sum counts the inner rounds begun (R85). -/
theorem iterate_mixAdvance_rsum {n : Nat} (hn : n ≤ 384) :
    ((mixAdvance seed)^[n] (mixStart block seed)).mix.rsum = BitVec.ofNat 32 ((n + 11) / 12 * 0x9e3779b9) := by
  induction n with
  | zero => rfl
  | succ n ih =>
    rw [Function.iterate_succ_apply', mixAdvance_rsum seed (iterate_mixAdvance_pos block seed hn), ih (by omega)]
    simp only [posAt_idx_eq_zero_iff]
    split
    next hstart =>
      have hbegun : (n + 1 + 11) / 12 = (n + 11) / 12 + 1 := by omega
      rw [hbegun, delta_add_mul]
    next hwithin =>
      have hbegun : (n + 1 + 11) / 12 = (n + 11) / 12 := by omega
      rw [hbegun]

end

/-- Settles O39: step number `n` belongs to inner round `n / 12`, which `n / 12 + 1` advances have begun. -/
theorem roundSumIsMultipleOfDelta : Obligations.RoundSumIsMultipleOfDelta := by
  intro block seed n hn
  have hbegun : (n + 1 + 11) / 12 = n / 12 + 1 := by omega
  rw [iterate_mixAdvance_rsum block seed hn, hbegun]

end Sys2Proof.Machine

namespace Sys2Proof.Machine

/-! ## The counter as a number (R23, R93) -/

/-- A word that is incremented wraps exactly from its last value (R93). -/
theorem wrapped_succ_iff (w : Word) : wrapped (w + 1) = true ↔ w = 0xFFFFFFFF := by
  rw [wrapped, beq_iff_eq]
  exact eq_neg_iff_add_eq_zero.symm

/-- The counter words of a number have that number's value, below the lost carry (R23, R108). -/
theorem ctrValue_counterWords (n : Nat) : ctrValue (counterWords n) = n % 2 ^ 128 := by
  simp [ctrValue, counterWords]
  omega

/-- A counter is the counter words of its value (R23). -/
theorem counterWords_ctrValue (ctr : Counter) : counterWords (ctrValue ctr) = ctr := by
  have h0 := ctr[0].isLt
  have h1 := ctr[1].isLt
  have h2 := ctr[2].isLt
  have h3 := ctr[3].isLt
  have hword (k : Nat) (hk : k < 4) : (counterWords (ctrValue ctr))[k].toNat = ctr[k].toNat := by
    interval_cases k <;> simp [counterWords, ctrValue] <;> omega
  exact Vector.ext fun k hk => BitVec.eq_of_toNat_eq (hword k hk)

/-- CTRINC adds one to the 128-bit value (R93). -/
theorem ctrValue_incCounter (ctr : Counter) : ctrValue (incCounter ctr) = (ctrValue ctr + 1) % 2 ^ 128 := by
  rw [← ctrValue_counterWords, ← incCounter_counterWords, counterWords_ctrValue]

/-- CTRINC word by word: a word moves on exactly when every word below it stands at its last value (R93). -/
theorem incCounter_eq (ctr : Counter) : incCounter ctr =
    #v[ctr[0] + 1,
      if ctr[0] = 0xFFFFFFFF then ctr[1] + 1 else ctr[1],
      if ctr[0] = 0xFFFFFFFF ∧ ctr[1] = 0xFFFFFFFF then ctr[2] + 1 else ctr[2],
      if ctr[0] = 0xFFFFFFFF ∧ ctr[1] = 0xFFFFFFFF ∧ ctr[2] = 0xFFFFFFFF then ctr[3] + 1 else ctr[3]] := by
  simp only [incCounter, wrapped_succ_iff, ite_and]
  split_ifs <;> rfl

/-- Settles O31: the words by the word equation, the number by the counter's value. -/
theorem counterIncrementCarries : Obligations.CounterIncrementCarries := by
  intro s
  have hwords := incCounter_eq s.ctr
  refine ⟨?_, ?_, ?_, ?_, ctrValue_incCounter s.ctr, rfl⟩ <;> rw [ctrInc_ctr, hwords] <;> rfl

/-! ## The digest sum and the digest bytes (R42, R94) -/

/-- A lane of a sum of lanes (R94). -/
theorem addLanes_getElem (a b : Lanes) (j : Fin 8) : (addLanes a b)[j] = a[j] + b[j] := by
  simp [addLanes]

/-- Settles O32: the lanes are added as words, each on its own. -/
theorem sumLanesWrapIndependently : Obligations.SumLanesWrapIndependently := by
  refine fun s => ⟨fun j => ?_, rfl⟩
  rw [sumAcc_sum, addLanes_getElem, BitVec.toNat_add]

/-- Byte `4j + k` of the digest is byte `k` of output word `j` (R42). -/
theorem serialise_getElem (o : Lanes) (j : Fin 8) (k : Fin 4) :
    (serialise o)[4 * j.val + k.val] = leByte o[j] k.val := by
  have hword : (4 * j.val + k.val) / 4 = j.val := by omega
  have hbyte : (4 * j.val + k.val) % 4 = k.val := by omega
  simp [serialise, hword, hbyte]

/-- `STATUS` shows the phase and nothing else (R33). -/
theorem status_of_phase {s : State} {p : Phase} (h : s.phase = p) : s.status = (0 : BitVec 6) ++ p.code := by
  rw [State.status, h]

/-! ## FINALIZE -/

/-- FINALIZE in `ABSORB` under PUT's precondition: the stream is closed and the digest emitted (R98). -/
theorem exec_finalize_of_absorb {s : State} (hphase : s.phase = .absorb) (hcursor : s.cursor.toNat ≤ 31) :
    exec .finalize s = .next (emitDigest (closeStream (accept s))) := by
  rw [exec_finalize, execFinalize, inAbsorb_of_absorb hphase]
  exact withRoom_of_le hcursor

/-- Settles O16: closing the stream is one flush of the padded buffer, and the final MIX takes the sum it leaves. -/
theorem finalizeResult : Obligations.FinalizeResult := by
  intro s hphase hcursor
  obtain ⟨buf', hclose, hpending, hmark, hpad⟩ := closeStream_spec (accept s) hcursor
  have hrun := exec_finalize_of_absorb hphase hcursor
  rw [hclose] at hrun
  have hdone := emitDigest_phase (flush (setCursor 32 { accept s with buf := buf' }))
  refine ⟨_, hrun, ?_, ?_, ?_, ?_, fun j => ?_, ?_, fun j k => ?_, ?_, hdone, status_of_phase hdone,
    hostDigest_of_done hdone, ?_, ?_, ?_⟩
  · simpa using hpending
  · simpa using hmark
  · simpa using hpad
  · simpa using ctrValue_incCounter s.ctr
  · simpa using addLanes_getElem s.sum (mix (blockView buf' (incCounter s.ctr)) s.seed) j
  · simp
  · rw [emitDigest_digest, serialise_getElem, emitDigest_out, leByte]
  all_goals simp

/-! ## INIT -/

/-- Settles O11: INIT's effect read field by field; it reads of the old state only what it keeps. -/
theorem initResult : Obligations.InitResult := by
  intro seed s
  have hstatus (t : State) (hphase : t.phase = .absorb) : t.status = 1 := status_of_phase hphase
  refine ⟨_, rfl, rfl, fun j => ?_, fun k => ?_, fun k => ?_, rfl, rfl, hstatus _ rfl, rfl, rfl, rfl, rfl, rfl,
    fun s' => rfl⟩
  · exact Vector.getElem_replicate j.isLt
  · exact Vector.getElem_replicate k.isLt
  · exact Vector.getElem_replicate k.isLt

/-! ## FILTER -/

/-- FILTER by the bytes it tells apart (R96). -/
theorem filterByte_eq (c : Byte) : filterByte c =
    if c = 0x20 ∨ c = 0x09 then .drop
    else if 0x41 ≤ c ∧ c ≤ 0x5A then .keep (c + 0x20) else .keep c := by
  simp [filterByte, isSkipped, isUpper]

/-- A byte that FILTER keeps is neither a blank nor an upper-case letter any more (R96). -/
theorem filterByte_kept {c c' : Byte} (h : filterByte c = .keep c') :
    ¬(c' = 0x20 ∨ c' = 0x09) ∧ ¬(0x41 ≤ c' ∧ c' ≤ 0x5A) := by
  rw [filterByte_eq] at h
  split at h
  next => cases h
  next hkept =>
    split at h
    next hupper =>
      cases h
      bv_omega
    next hother =>
      cases h
      exact ⟨hkept, hother⟩

/-- Settles O14: a kept byte passes both tests of the filter; the counts run over the 256 bytes. -/
theorem filterDropsAndFolds : Obligations.FilterDropsAndFolds := by
  refine ⟨filterByte_eq, fun c c' h => ?_, by decide +kernel, by decide +kernel⟩
  obtain ⟨hkept, hother⟩ := filterByte_kept h
  rw [filterByte_eq, if_neg hkept, if_neg hother]

/-! ## Messages -/

/-- The bytes that INGEST brings are the message itself (R95). -/
theorem filterMap_reaches_ingestAll (m : List Byte) : (ingestAll m).filterMap reaches = m := by
  simp [ingestAll, reaches, List.filterMap_map, Function.comp_def]

/-- The bytes that INGESTF brings are the filtered text (R97, R104). -/
theorem filterMap_reaches_ingestFoldedAll (m : List Byte) : (ingestFoldedAll m).filterMap reaches = filterBytes m := by
  rw [ingestFoldedAll, List.filterMap_map]
  rfl

theorem isStore_of_mem_ingestAll (m : List Byte) : ∀ i ∈ ingestAll m, isStore i = true :=
  List.forall_mem_map.mpr fun _ _ => rfl

theorem isStore_of_mem_ingestFoldedAll (m : List Byte) : ∀ i ∈ ingestFoldedAll m, isStore i = true :=
  List.forall_mem_map.mpr fun _ _ => rfl

/-- INGEST of each byte of `a` extends the message held by `a` (R34, R99). -/
theorem StreamState.execAll_ingestAll {seed : Seed} {m : List Byte} {s : State} (h : StreamState seed m s)
    (a : List Byte) : ∃ t, execAll (ingestAll a) s = .next t ∧ StreamState seed (m ++ a) t := by
  obtain ⟨t, hrun, hstream⟩ := h.execAll_stores (isStore_of_mem_ingestAll a)
  exact ⟨t, hrun, filterMap_reaches_ingestAll a ▸ hstream⟩

theorem ingestAll_append (a b : List Byte) : ingestAll (a ++ b) = ingestAll a ++ ingestAll b :=
  List.map_append

/-- Settles O48: the commands of `a ++ b` are those of `a` and then those of `b`. -/
theorem chunkingDoesNotMatter : Obligations.ChunkingDoesNotMatter := by
  intro a b s
  have hparts : execAll (ingestAll (a ++ b)) s = andThen (execAll (ingestAll a) s) (execAll (ingestAll b)) := by
    rw [ingestAll_append, execAll_append]
  refine ⟨hparts, fun seed m hm => ?_⟩
  obtain ⟨u, hu, hma⟩ := hm.execAll_ingestAll a
  obtain ⟨t, ht, hmab⟩ := hma.execAll_ingestAll b
  exact ⟨u, t, hu, hma, ht, hmab, by rw [hparts, hu, andThen_next, ht]⟩

/-- What FINALIZE leaves when it ends the message `m` (R106, R107). -/
theorem StreamState.after_finalize {seed : Seed} {m : List Byte} {s : State} (h : StreamState seed m s) :
    ∃ t, exec .finalize s = .next t ∧ t.phase = .done ∧ t.cursor = 0 ∧ t.seed = seed ∧
      ctrValue t.ctr = blockCount m % 2 ^ 128 ∧ hostDigest t = some (digestOf seed m) := by
  have hclosed : StreamState seed (padded m) (closeStream (accept s)) := h.after_accept.after_closeStream
  have hlen := padded_length m
  have hblocks : (padded m).length / 32 = blockCount m := by omega
  have hcursor : (closeStream (accept s)).cursor.toNat = 0 := by rw [hclosed.cursor]; omega
  refine ⟨_, h.exec_finalize_eq, rfl, ?_, hclosed.seedHeld, ?_, hclosed.hostDigest_emitDigest⟩
  · exact BitVec.eq_of_toNat_eq hcursor
  · rw [emitDigest_ctr, hclosed.counter, hblocks, ctrValue_counterWords]

/-- Settles O44: INIT opens the empty message, the bytes extend it to `m`, and FINALIZE ends it. -/
theorem runComputesClosedForm : Obligations.RunComputesClosedForm := by
  intro seed m s
  obtain ⟨u, hinit, hopen⟩ := exec_init_opens_stream seed s
  obtain ⟨v, hbytes, hstream⟩ := hopen.execAll_ingestAll m
  obtain ⟨t, hfinal, hresult⟩ := hstream.after_finalize
  refine ⟨t, ?_, hresult⟩
  simp only [hashRun, execAll_cons, execAll_append, execAll_nil, hinit, hbytes, hfinal, andThen_next]

/-- A run by the folding path gives the digest of the filtered text (R104, R108). -/
theorem execAll_hashFoldedRun (seed : Seed) (m : List Byte) (s : State) :
    ∃ t, execAll (hashFoldedRun seed m) s = .next t ∧ hostDigest t = some (digestOf seed (filterBytes m)) := by
  rw [← filterMap_reaches_ingestFoldedAll]
  exact execAll_stores_digest seed (isStore_of_mem_ingestFoldedAll m) s

/-- Nothing is left of spaces and tabs (R96, R105). -/
theorem filterBytes_of_blanks {m : List Byte} (h : ∀ c ∈ m, c = 0x20 ∨ c = 0x09) : filterBytes m = [] := by
  refine List.filterMap_eq_nil_iff.mpr fun c hc => ?_
  rw [filterByte_eq, if_pos (h c hc), Filtered.toOption]

/-- Settles O50: the folded digest is a function of the filtered text, which is empty for blanks alone. -/
theorem foldedDigestIgnoresCaseAndBlanks : Obligations.FoldedDigestIgnoresCaseAndBlanks := by
  intro seed m s
  obtain ⟨t, hrun, hdigest⟩ := execAll_hashFoldedRun seed m s
  refine ⟨fun m' s' htext => ?_, fun hblank => ⟨t, hrun, ?_⟩⟩
  · obtain ⟨t', hrun', hdigest'⟩ := execAll_hashFoldedRun seed m' s'
    exact ⟨t, t', hrun, hrun', by rw [hdigest, hdigest', htext], by simp [hdigest]⟩
  · rw [hdigest, filterBytes_of_blanks hblank]

end Sys2Proof.Machine

namespace Sys2Proof

/-! ## The command word and its fields (R61) -/

/-- A word is put together from its fields (R61). -/
theorem wordOf_fieldsOf (w : CommandWord) : wordOf (fieldsOf w) = w := by
  calc wordOf (fieldsOf w)
      = w.extractLsb' 12 4 ++ w.extractLsb' 8 4 ++ w.extractLsb' 0 8 := rfl
    _ = w.extractLsb' 8 8 ++ w.extractLsb' 0 8 := by
        rw [BitVec.extractLsb'_append_extractLsb'_eq_extractLsb' (by decide)]
    _ = w.extractLsb' 0 16 := BitVec.extractLsb'_append_extractLsb'_eq_extractLsb' (by decide)
    _ = w := BitVec.extractLsb'_eq_self

/-- INIT's word does not depend on its Seed (R68). -/
theorem wordOf_init_fields (seed : Seed) : wordOf (Instr.init seed).fields = 0x1000 := by
  rw [Instr.fields]
  rfl

/-- The mask of the byte commands clears the byte and keeps the rest of the word (R62). -/
theorem wordOf_and_highMask (f : Fields) : wordOf f &&& 0xFF00 = wordOf { f with byte := 0 } := by
  calc wordOf f &&& 0xFF00
      = ((f.op ++ f.mbz) ++ f.byte) &&& (BitVec.allOnes 8 ++ 0#8) := rfl
    _ = ((f.op ++ f.mbz) &&& BitVec.allOnes 8) ++ (f.byte &&& 0#8) := BitVec.and_append
    _ = f.op ++ f.mbz ++ 0#8 := by rw [BitVec.and_allOnes, BitVec.and_zero]

/-- The mask of INIT and FINALIZE keeps the whole word (R62). -/
theorem and_fullMask (w : CommandWord) : w &&& 0xFFFF = w := BitVec.and_allOnes

/-- The row of a byte command selects the words with that operation code, a zero `mbz` and the operand as byte (R62, R63). -/
theorem byteRow_iff (w : CommandWord) (op : BitVec 4) (b : Byte) :
    w &&& 0xFF00 = wordOf ⟨op, 0, 0⟩ ∧ b = w.extractLsb' 0 8 ↔ w = wordOf ⟨op, 0, b⟩ := by
  constructor
  · rintro ⟨hrow, rfl⟩
    rw [← wordOf_fieldsOf w, wordOf_and_highMask] at hrow
    have hhigh : { fieldsOf w with byte := 0 } = (⟨op, 0, 0⟩ : Fields) := by
      rw [← fieldsOf_wordOf { fieldsOf w with byte := 0 }, hrow, fieldsOf_wordOf]
    obtain ⟨hop, hmbz, -⟩ := (Fields.mk.injEq ..).mp hhigh
    rw [← hop, ← hmbz]
    exact (wordOf_fieldsOf w).symm
  · rintro rfl
    exact ⟨wordOf_and_highMask _, (congrArg Fields.byte (fieldsOf_wordOf ⟨op, 0, b⟩)).symm⟩

/-- A command decodes to an instruction exactly when its word has that instruction's fields and, for INIT, the Seed stands on
`seed_in` (R61, R62, R68). -/
theorem decode_eq_ok_iff_word (c : Command) (i : Instr) :
    decode c = .ok i ↔ c.word = wordOf i.fields ∧ ∀ seed, i = .init seed → c.seedIn = seed := by
  rw [decode_eq_ok_iff]
  cases i with
  | init seed =>
    rw [SelectedBy, and_fullMask, wordOf_init_fields]
    constructor
    · rintro ⟨hword, rfl⟩
      exact ⟨hword, fun _ hsame => Instr.init.inj hsame⟩
    · rintro ⟨hword, hseed⟩
      exact ⟨hword, (hseed seed rfl).symm⟩
  | ingest b => exact (byteRow_iff c.word 0x2 b).trans ⟨fun hword => ⟨hword, nofun⟩, And.left⟩
  | ingestf b => exact (byteRow_iff c.word 0x3 b).trans ⟨fun hword => ⟨hword, nofun⟩, And.left⟩
  | finalize =>
    rw [SelectedBy, and_fullMask]
    exact ⟨fun hword => ⟨hword, nofun⟩, And.left⟩

/-- Settles O8: an encoded word has the instruction's fields, and INIT's Seed is put on `seed_in`. -/
theorem decodeEncodeRoundTrip : Obligations.DecodeEncodeRoundTrip := by
  intro i
  refine (decode_eq_ok_iff_word (encode i) i).mpr ⟨rfl, ?_⟩
  rintro seed rfl
  rfl

/-- Settles O9: what a word decodes to has the fields of that word. -/
theorem encodeDecodeRoundTrip : Obligations.EncodeDecodeRoundTrip := by
  intro c i h
  obtain ⟨hword, hseed⟩ := (decode_eq_ok_iff_word c i).mp h
  exact ⟨hword.symm, hseed⟩

/-- Settles O6: the listed words, decoded. -/
theorem decodeOfListedWords : Obligations.DecodeOfListedWords := by
  unfold Obligations.DecodeOfListedWords
  decide

/-! ## The reserved words (R64) -/

/-- The fields of a word that decodes are those of its instruction, so a reserved group does not decode (R64). -/
theorem decode_eq_error_of_reserved {c : Command}
    (h : c.word.extractLsb' 12 4 = 0 ∨ 5 ≤ (c.word.extractLsb' 12 4).toNat ∨ c.word.extractLsb' 8 4 ≠ 0 ∨
      ((c.word.extractLsb' 12 4 = 1 ∨ c.word.extractLsb' 12 4 = 4) ∧ c.word.extractLsb' 0 8 ≠ 0)) :
    ∃ e, decode c = .error e := by
  cases hd : decode c with
  | error e => exact ⟨e, rfl⟩
  | ok i =>
    obtain ⟨hword, -⟩ := (decode_eq_ok_iff_word c i).mp hd
    have hfields : fieldsOf c.word = i.fields := by rw [hword, fieldsOf_wordOf]
    have hop : c.word.extractLsb' 12 4 = i.fields.op := congrArg Fields.op hfields
    have hmbz : c.word.extractLsb' 8 4 = i.fields.mbz := congrArg Fields.mbz hfields
    have hbyte : c.word.extractLsb' 0 8 = i.fields.byte := congrArg Fields.byte hfields
    rw [hop, hmbz, hbyte] at h
    cases i <;> simp [Instr.fields] at h

/-- A command word as a number: its operation code and its byte, where `mbz` is zero (R61). -/
theorem wordOf_toNat (op : BitVec 4) (b : Byte) : (wordOf ⟨op, 0, b⟩).toNat = 2 ^ 12 * op.toNat + b.toNat := by
  rw [wordOf, Machine.toNat_append_byte, BitVec.toNat_append]
  simp [Nat.shiftLeft_eq]
  omega

/-- The words with one operation code and a byte operand are 256 numbers in a row (R62, R63). -/
theorem exists_eq_wordOf_iff (w : CommandWord) (op : BitVec 4) :
    (∃ b, w = wordOf ⟨op, 0, b⟩) ↔ w.toNat ∈ Finset.Ico (2 ^ 12 * op.toNat) (2 ^ 12 * op.toNat + 256) := by
  simp only [← BitVec.toNat_inj, wordOf_toNat, Finset.mem_Ico]
  constructor
  · rintro ⟨b, hw⟩
    have := b.isLt
    omega
  · rintro ⟨hlow, hhigh⟩
    refine ⟨BitVec.ofNat 8 (w.toNat - 2 ^ 12 * op.toNat), ?_⟩
    rw [BitVec.toNat_ofNat, Nat.mod_eq_of_lt (by omega)]
    omega

/-- What decodes, row by row (R62). -/
theorem exists_decode_ok_iff (c : Command) : (∃ i, decode c = .ok i) ↔
    (c.word = 0x1000 ∨ c.word = 0x4000) ∨ (∃ b, c.word = wordOf ⟨0x2, 0, b⟩) ∨ ∃ b, c.word = wordOf ⟨0x3, 0, b⟩ := by
  simp only [decode_eq_ok_iff_word]
  constructor
  · rintro ⟨i, hword, -⟩
    cases i with
    | init seed => exact .inl (.inl (hword.trans (wordOf_init_fields seed)))
    | ingest b => exact .inr (.inl ⟨b, hword⟩)
    | ingestf b => exact .inr (.inr ⟨b, hword⟩)
    | finalize => exact .inl (.inr hword)
  · rintro ((hword | hword) | ⟨b, hword⟩ | ⟨b, hword⟩)
    · exact ⟨.init c.seedIn, hword.trans (wordOf_init_fields _).symm, fun _ hsame => Instr.init.inj hsame⟩
    · exact ⟨.finalize, hword, nofun⟩
    · exact ⟨.ingest b, hword, nofun⟩
    · exact ⟨.ingestf b, hword, nofun⟩

/-- The numbers of the words that decode: INIT and FINALIZE, INGEST, INGESTF (R62). -/
def acceptedNumbers : Finset Nat := {0x1000, 0x4000} ∪ (Finset.Ico 0x2000 0x2100 ∪ Finset.Ico 0x3000 0x3100)

theorem mem_acceptedNumbers (n : Nat) : n ∈ acceptedNumbers ↔
    (n = 0x1000 ∨ n = 0x4000) ∨ n ∈ Finset.Ico 0x2000 0x2100 ∨ n ∈ Finset.Ico 0x3000 0x3100 := by
  simp only [acceptedNumbers, Finset.mem_union, Finset.mem_insert, Finset.mem_singleton]

theorem card_acceptedNumbers : acceptedNumbers.card = 514 := by
  have hbytes : Disjoint (Finset.Ico 0x2000 0x2100) (Finset.Ico 0x3000 0x3100) :=
    Finset.disjoint_left.mpr fun n hlow hhigh => by simp only [Finset.mem_Ico] at hlow hhigh; omega
  have hrest : Disjoint {0x1000, 0x4000} (Finset.Ico 0x2000 0x2100 ∪ Finset.Ico 0x3000 0x3100) := by
    simp
  rw [acceptedNumbers, Finset.card_union_of_disjoint hrest, Finset.card_union_of_disjoint hbytes, Nat.card_Ico,
    Nat.card_Ico]
  rfl

theorem acceptedNumbers_subset : acceptedNumbers ⊆ Finset.range 65536 := by
  intro n hn
  simp only [mem_acceptedNumbers, Finset.mem_Ico] at hn
  rw [Finset.mem_range]
  omega

/-- A number below 65536 is refused as a command word exactly when it is not among the accepted ones (R64). -/
theorem decodeTableWord_eq_none_iff {n : Nat} (hn : n < 65536) : decodeTableWord 16 n = none ↔ n ∉ acceptedNumbers := by
  have hword : (Command.ofBits 16 n).word.toNat = n := by
    simp [Command.ofBits]
    omega
  have hdecodes : (∃ i, decode (Command.ofBits 16 n) = .ok i) ↔ n ∈ acceptedNumbers := by
    rw [exists_decode_ok_iff, exists_eq_wordOf_iff, exists_eq_wordOf_iff, ← BitVec.toNat_inj, ← BitVec.toNat_inj, hword,
      mem_acceptedNumbers]
    rfl
  rw [← hdecodes, decodeTableWord]
  cases decode (Command.ofBits 16 n) <;> simp

/-- The reserved words are the 65536 words but for the accepted ones (R64). -/
theorem count_reservedWords : ((List.range 65536).filter fun n => decodeTableWord 16 n == none).length = 65022 := by
  have hreserved : ((List.range 65536).filter fun n => decodeTableWord 16 n == none).toFinset =
      Finset.range 65536 \ acceptedNumbers := by
    ext n
    simp only [List.mem_toFinset, List.mem_filter, List.mem_range, Finset.mem_sdiff, Finset.mem_range, beq_iff_eq]
    exact and_congr_right decodeTableWord_eq_none_iff
  rw [← List.toFinset_card_of_nodup (List.nodup_range.filter _), hreserved,
    Finset.card_sdiff_of_subset acceptedNumbers_subset, card_acceptedNumbers, Finset.card_range]

end Sys2Proof

namespace Sys2Proof.Machine

/-! ## One step, by the event it takes (R61, R132, R140) -/

section

variable {s : State} {c : Command} {rest : List HostEvent}

theorem step_of_idle (h : s.pending = []) : step s = .next (idle s) := by
  rw [step, h]

theorem step_of_reset (h : s.pending = .reset :: rest) : step s = .next (resetEvent rest) := by
  rw [step, h]

/-- A command that decodes is executed (R61). -/
theorem step_of_decode {i : Instr} (h : s.pending = .command c :: rest) (hd : decode c = .ok i) :
    step s = exec i (takeEvent rest s) := by
  simp only [step, h, runCommand, hd]

/-- A reserved word is rejected (R64). -/
theorem step_of_reserved {e : DecodeError} (h : s.pending = .command c :: rest) (hd : decode c = .error e) :
    step s = .next (raiseReject .reservedEncoding (takeEvent rest s)) := by
  simp only [step, h, runCommand, hd]

end

/-- Outside `DONE` the digest has no value (R30). -/
theorem hostDigest_of_ne_done {s : State} (h : s.phase ≠ .done) : hostDigest s = none := by
  cases hp : s.phase with
  | done => exact absurd hp h
  | uninit => simp [hostDigest, hp]
  | absorb => simp [hostDigest, hp]

/-- Settles O1: `rst` leads to the state after reset, whatever the state was. -/
theorem resetEntersUninit : Obligations.ResetEntersUninit := by
  refine ⟨rfl, rfl, fun s rest h => ⟨resetEvent rest, step_of_reset h, rfl, rfl, ?_⟩⟩
  have hstatus : (resetEvent rest).status = 0 := status_of_phase (p := .uninit) rfl
  rw [hostView, hstatus]
  rfl

/-- Settles O2: the state after reset is in `UNINIT` with the cursor at zero and no code. -/
theorem resetMeetsInv : Obligations.ResetMeetsInv := ⟨Nat.zero_le _, nofun, nofun, nofun⟩

/-- Settles O3: with nothing pending a step is `idle`, which writes `rej` alone. -/
theorem idleStepHoldsState : Obligations.IdleStepHoldsState := fun _ h => step_of_idle h

/-- Settles O4: the command is taken off what is pending, decoded and executed. -/
theorem stepRunsDecodedCommand : Obligations.StepRunsDecodedCommand :=
  fun _ _ _ _ hpending hd => step_of_decode hpending hd

/-- The two fields of `STATUS`, and that the phase code 3 is never taken (R29, R33). -/
theorem status_fields (s : State) :
    s.status.extractLsb' 0 2 = s.phase.code ∧ s.status.extractLsb' 2 6 = 0 ∧ s.status ≠ 3 := by
  rw [State.status]
  cases s.phase <;> decide

/-- Settles O5: `STATUS` by the phase's code, `rej` by its code, the digest by the phase. -/
theorem hostReadsPhaseAndDigest : Obligations.HostReadsPhaseAndDigest := by
  intro s
  obtain ⟨hphase, hzero, hnever⟩ := status_fields s
  have hrej {code : RejCode} (h : s.rej = code) : (hostView s).rej = code.code := congrArg RejCode.code h
  exact ⟨hphase, hzero, hnever, rfl, status_of_phase, status_of_phase, status_of_phase, hrej, hrej, hrej, hrej,
    hostDigest_of_done, hostDigest_of_ne_done⟩

/-- Settles O10: a word of the three groups does not decode, so the step rejects it; the accepted words are counted. -/
theorem reservedWordsAreRejected : Obligations.ReservedWordsAreRejected := by
  refine ⟨fun s c rest hpending hreserved => ?_, count_reservedWords⟩
  obtain ⟨e, hd⟩ := decode_eq_error_of_reserved hreserved
  exact ⟨_, step_of_reserved hpending hd, rfl, rfl⟩

end Sys2Proof.Machine

namespace Sys2Proof.Machine

/-! ## What PUT and the closing of the stream keep (R91, R92, R98) -/

section

variable (c : Byte) (s : State)

/-- PUT stores the byte and advances the cursor, and flushes if that fills the buffer (R91). -/
theorem putByte_eq_ite : putByte c s =
    if cursorFull (s.cursor + 1) then flush (setCursor (s.cursor + 1) (memWrite s.cursor.toNat c s))
    else setCursor (s.cursor + 1) (memWrite s.cursor.toNat c s) := rfl

@[simp] theorem putByte_seed : (putByte c s).seed = s.seed := by
  rw [putByte_eq_ite, apply_ite State.seed]; simp
@[simp] theorem putByte_phase : (putByte c s).phase = s.phase := by
  rw [putByte_eq_ite, apply_ite State.phase]; simp
@[simp] theorem putByte_rej : (putByte c s).rej = s.rej := by
  rw [putByte_eq_ite, apply_ite State.rej]; simp
@[simp] theorem putByte_pending : (putByte c s).pending = s.pending := by
  rw [putByte_eq_ite, apply_ite State.pending]; simp

/-- PUT counts a block or leaves the counter (R91, R92). -/
theorem putByte_ctr : (putByte c s).ctr = s.ctr ∨ (putByte c s).ctr = incCounter s.ctr := by
  rw [putByte_eq_ite]
  split
  · exact .inr (by simp)
  · exact .inl rfl

/-- PUT keeps the cursor in range (R91). -/
theorem putByte_cursor_le {c : Byte} {s : State} (h : CursorInRange s) : CursorInRange (putByte c s) := by
  rcases putByte_cases c h with ⟨hlt, hput⟩ | ⟨-, hput⟩
  · rw [CursorInRange, hput, setCursor_cursor, cursor_succ_toNat h]
    omega
  · rw [CursorInRange, hput, flush_cursor]
    exact Nat.zero_le _

/-- What the closing of the stream keeps, and what its one flush does to cursor and counter (R98, R101). -/
theorem closeStream_frame {s : State} (h : CursorInRange s) :
    (closeStream s).seed = s.seed ∧ (closeStream s).ctr = incCounter s.ctr ∧ (closeStream s).cursor = 0 ∧
      (closeStream s).rej = s.rej ∧ (closeStream s).pending = s.pending := by
  obtain ⟨buf', hclose, -⟩ := closeStream_spec s h
  simp [hclose]

end

/-! ## Everything an instruction can do -/

/-- The state INIT leaves (R90). -/
def opened (seed : Seed) (s : State) : State :=
  { accept s with
    seed := seed
    sum := Vector.replicate 8 0
    buf := Vector.replicate 32 0
    ctr := Vector.replicate 4 0
    cursor := 0
    phase := .absorb }

theorem execInit_eq (seed : Seed) (s : State) : execInit seed s = .next (opened seed s) := rfl

/-- What an instruction answers in a state, with the condition under which it does so: INIT opens a message in every phase;
the others are rejected outside `ABSORB`, and there drop a byte, store one, close the message or find no room. -/
inductive Answer (s : State) : Instr → Result → Prop where
  | opened (seed : Seed) : Answer s (.init seed) (.next (opened seed s))
  | rejectedUninit {i : Instr} (notInit : ∀ seed, i ≠ .init seed) (phase : s.phase = .uninit) :
      Answer s i (.next (raiseReject .notInitialised s))
  | rejectedDone {i : Instr} (notInit : ∀ seed, i ≠ .init seed) (phase : s.phase = .done) :
      Answer s i (.next (raiseReject .afterFinalize s))
  | dropped (b : Byte) (phase : s.phase = .absorb) : Answer s (.ingestf b) (.next (accept s))
  | stored {i : Instr} (store : isStore i = true) (c : Byte) (phase : s.phase = .absorb) (room : CursorInRange s) :
      Answer s i (.next (putByte c (accept s)))
  | closed (phase : s.phase = .absorb) (room : CursorInRange s) :
      Answer s .finalize (.next (emitDigest (closeStream (accept s))))
  | noRoom {i : Instr} (notInit : ∀ seed, i ≠ .init seed) (phase : s.phase = .absorb) (full : 32 ≤ s.cursor.toNat) :
      Answer s i (.fault .bufIndexOutOfRange)

/-- The phase check leaves of an instruction that goes through it what it does in `ABSORB` (R122). -/
theorem Answer.of_inAbsorb {i : Instr} {s : State} {k : State → Result} (notInit : ∀ seed, i ≠ .init seed)
    (h : s.phase = .absorb → Answer s i (k (accept s))) : Answer s i (inAbsorb k s) := by
  rcases inAbsorb_cases k s with ⟨hphase, hrun⟩ | ⟨hphase, hrun⟩ | ⟨hphase, hrun⟩ <;> rw [hrun]
  · exact h hphase
  · exact .rejectedUninit notInit hphase
  · exact .rejectedDone notInit hphase

theorem Answer.of_storeByte {i : Instr} {s : State} (store : isStore i = true) (c : Byte) (hphase : s.phase = .absorb) :
    Answer s i (storeByte c (accept s)) := by
  have notInit (seed : Seed) : i ≠ .init seed := by rintro rfl; cases store
  rw [storeByte]
  rcases withRoom_cases (putByte c) (accept s) with ⟨hroom, hrun⟩ | ⟨hfull, hrun⟩ <;> rw [hrun]
  · exact .stored store c hphase hroom
  · exact .noRoom notInit hphase hfull

/-- Every instruction answers one of these. -/
theorem exec_answer (i : Instr) (s : State) : Answer s i (exec i s) := by
  cases i with
  | init seed =>
    rw [exec_init, execInit_eq]
    exact .opened seed
  | ingest b => exact .of_inAbsorb nofun fun hphase => .of_storeByte rfl b hphase
  | ingestf b =>
    refine .of_inAbsorb nofun fun hphase => ?_
    rw [storeFiltered]
    cases filterByte b with
    | drop => exact .dropped b hphase
    | keep c => exact .of_storeByte rfl c hphase
  | finalize =>
    refine .of_inAbsorb nofun fun hphase => ?_
    rcases withRoom_cases (fun s => emitDigest (closeStream s)) (accept s) with ⟨hroom, hrun⟩ | ⟨hfull, hrun⟩ <;> rw [hrun]
    · exact .closed hphase hroom
    · exact .noRoom nofun hphase hfull

/-- The same of a next state that an instruction answers. -/
theorem answer_of_exec {i : Instr} {s : State} {r : Result} (h : exec i s = r) : Answer s i r :=
  h ▸ exec_answer i s

/-! ## What follows for one instruction -/

/-- No instruction touches what is pending (log entry 4). -/
theorem exec_pending {i : Instr} {s t : State} (h : exec i s = .next t) : t.pending = s.pending := by
  cases answer_of_exec h with
  | opened seed => rfl
  | rejectedUninit notInit phase => rfl
  | rejectedDone notInit phase => rfl
  | dropped b phase => rfl
  | stored store c phase room => simp
  | closed phase room =>
    obtain ⟨-, -, -, -, hpending⟩ := closeStream_frame (s := accept s) room
    simpa using hpending

/-- An instruction keeps the cursor in range (R25, R34). -/
theorem exec_cursor_le {i : Instr} {s t : State} (hs : CursorInRange s) (h : exec i s = .next t) : CursorInRange t := by
  cases answer_of_exec h with
  | opened seed => exact Nat.zero_le _
  | rejectedUninit notInit phase => exact hs
  | rejectedDone notInit phase => exact hs
  | dropped b phase => exact hs
  | stored store c phase room => exact putByte_cursor_le (s := accept s) room
  | closed phase room =>
    obtain ⟨-, -, hcursor, -⟩ := closeStream_frame (s := accept s) room
    simp [hcursor]

/-- An instruction that answers is accepted, or rejected by its phase with nothing else changed (R121, R122). -/
theorem exec_accepts_or_rejects {i : Instr} {s t : State} (h : exec i s = .next t) :
    (t.rej = .accepted ∧ ((∃ seed, i = .init seed) ∨ s.phase = .absorb)) ∨
      (t = raiseReject .notInitialised s ∧ s.phase = .uninit ∧ ∀ seed, i ≠ .init seed) ∨
      (t = raiseReject .afterFinalize s ∧ s.phase = .done ∧ ∀ seed, i ≠ .init seed) := by
  cases answer_of_exec h with
  | opened seed => exact .inl ⟨rfl, .inl ⟨seed, rfl⟩⟩
  | rejectedUninit notInit phase => exact .inr (.inl ⟨rfl, phase, notInit⟩)
  | rejectedDone notInit phase => exact .inr (.inr ⟨rfl, phase, notInit⟩)
  | dropped b phase => exact .inl ⟨rfl, .inr phase⟩
  | stored store c phase room => exact .inl ⟨putByte_rej c (accept s), .inr phase⟩
  | closed phase room =>
    obtain ⟨-, -, -, hrej, -⟩ := closeStream_frame (s := accept s) room
    exact .inl ⟨(emitDigest_rej _).trans hrej, .inr phase⟩

/-- With the cursor in range every instruction answers a next state (R11, R120). -/
theorem exec_next_of_cursor_le (i : Instr) {s : State} (hs : CursorInRange s) : ∃ t, exec i s = .next t := by
  cases h : exec i s with
  | next t => exact ⟨t, rfl⟩
  | fault r =>
    cases answer_of_exec h with
    | noRoom notInit phase full => omega
  | refused r => cases answer_of_exec h

/-- Settles O23: of the answers one is a fault, and none a refusal. -/
theorem faultOnlyBeyondBuffer : Obligations.FaultOnlyBeyondBuffer := by
  refine fun i s => ⟨fun r h => ?_, fun r h => by cases answer_of_exec h⟩
  cases answer_of_exec h with
  | noRoom notInit phase full => exact ⟨phase, full, notInit⟩

/-- Settles O24: no answer but INIT's writes the Seed. -/
theorem seedChangedOnlyByInit : Obligations.SeedChangedOnlyByInit := by
  intro i s t h hi
  cases answer_of_exec h with
  | opened seed => exact absurd rfl (hi seed)
  | rejectedUninit notInit phase => rfl
  | rejectedDone notInit phase => rfl
  | dropped b phase => rfl
  | stored store c phase room => simp
  | closed phase room =>
    obtain ⟨hseed, -⟩ := closeStream_frame (s := accept s) room
    simpa using hseed

/-- Settles O25: a flush counts one block, PUT flushes at most once and the closing of the stream exactly once. -/
theorem counterCountsOneBlock : Obligations.CounterCountsOneBlock := by
  intro i s t h
  have counted {t : State} (ht : t.ctr = incCounter s.ctr) : ctrValue t.ctr = (ctrValue s.ctr + 1) % 2 ^ 128 := by
    rw [ht, ctrValue_incCounter]
  cases answer_of_exec h with
  | opened seed => exact .inr (.inr ⟨⟨seed, rfl⟩, rfl⟩)
  | rejectedUninit notInit phase => exact .inl rfl
  | rejectedDone notInit phase => exact .inl rfl
  | dropped b phase => exact .inl rfl
  | stored store c phase room => exact (putByte_ctr c (accept s)).imp_right fun hctr => .inl (counted hctr)
  | closed phase room =>
    obtain ⟨-, hctr, -⟩ := closeStream_frame (s := accept s) room
    exact .inr (.inl (counted ((emitDigest_ctr _).trans hctr)))

/-- The three commands begin with the phase check (R95, R97, R98). -/
theorem exec_eq_inAbsorb {i : Instr} (notInit : ∀ seed, i ≠ .init seed) : ∃ k, exec i = inAbsorb k := by
  cases i with
  | init seed => exact absurd rfl (notInit seed)
  | ingest b => exact ⟨_, rfl⟩
  | ingestf b => exact ⟨_, rfl⟩
  | finalize => exact ⟨_, rfl⟩

theorem inAbsorb_of_uninit {k : State → Result} {s : State} (h : s.phase = .uninit) :
    inAbsorb k s = .next (raiseReject .notInitialised s) := by
  simp [inAbsorb, h]

theorem inAbsorb_of_done {k : State → Result} {s : State} (h : s.phase = .done) :
    inAbsorb k s = .next (raiseReject .afterFinalize s) := by
  simp [inAbsorb, h]

/-- Settles O18: outside `ABSORB` the phase check of the three commands rejects them. -/
theorem commandsOutsideAbsorbAreRejected : Obligations.CommandsOutsideAbsorbAreRejected := by
  intro b s i hi
  obtain ⟨k, hcheck⟩ : ∃ k, exec i = inAbsorb k := by
    rcases hi with rfl | rfl | rfl <;> exact exec_eq_inAbsorb nofun
  rw [hcheck]
  exact ⟨fun hphase => ⟨_, inAbsorb_of_uninit hphase, rfl, rfl⟩, fun hphase => ⟨_, inAbsorb_of_done hphase, rfl, rfl⟩⟩

/-! ## What follows for one step -/

/-- Only the elements of the spec are compared: `rej` and what is pending may differ. -/
theorem SameElements.refl (s : State) : SameElements s s := ⟨rfl, rfl, rfl, rfl, rfl, rfl, rfl, rfl⟩

/-- Settles O20: only Reject signals a code, and it changes nothing but `rej`. -/
theorem rejectChangesNoElement : Obligations.RejectChangesNoElement := by
  intro s t h hrej
  rcases step_cases s with ⟨-, hstep⟩ | ⟨rest, -, hstep⟩ | ⟨c, rest, e, hpending, -, hstep⟩ |
    ⟨c, rest, i, hpending, -, hstep⟩ <;> rw [hstep] at h
  case inl => cases h; exact absurd rfl hrej
  case inr.inl => cases h; exact absurd rfl hrej
  case inr.inr.inl => cases h; exact ⟨SameElements.refl s, _, hpending⟩
  case inr.inr.inr =>
    rcases exec_accepts_or_rejects h with ⟨haccepted, -⟩ | ⟨rfl, -⟩ | ⟨rfl, -⟩
    · exact absurd haccepted hrej
    · exact ⟨SameElements.refl s, _, hpending⟩
    · exact ⟨SameElements.refl s, _, hpending⟩

/-- Settles O19: a reserved word has code 1; a word that decodes is answered by the phase check. -/
theorem rejectCodesAreComplete : Obligations.RejectCodesAreComplete := by
  intro s t c rest hpending h
  have hview : (hostView t).rej = t.rej.code := rfl
  cases hd : decode c with
  | error e =>
    rw [step_of_reserved hpending hd] at h
    cases h
    simp [hview, RejCode.code]
  | ok i =>
    rw [step_of_decode hpending hd] at h
    rcases exec_accepts_or_rejects h with ⟨hrej, hwhy⟩ | ⟨rfl, hphase, notInit⟩ | ⟨rfl, hphase, notInit⟩
    · rcases hwhy with ⟨seed, rfl⟩ | hphase
      · simp [hview, hrej, RejCode.code]
      · have hs : s.phase = .absorb := hphase
        simp [hview, hrej, RejCode.code, hs]
    · have hs : s.phase = .uninit := hphase
      simp [hview, RejCode.code, hs, notInit]
    · have hs : s.phase = .done := hphase
      simp [hview, RejCode.code, hs, notInit]

/-- Settles O17: in `DONE` only `rst` and INIT do more than write `rej` and take an event. -/
theorem digestHeldUntilInit : Obligations.DigestHeldUntilInit := by
  intro s t hs h noReset noInit
  suffices hsame : SameElements t s by
    have ⟨_, _, _, _, _, _, hphase, hdigest⟩ := hsame
    exact ⟨hsame, by rw [hostDigest_of_done (hphase.trans hs), hdigest]⟩
  rcases step_cases s with ⟨-, hstep⟩ | ⟨rest, hpending, -⟩ | ⟨c, rest, e, -, -, hstep⟩ |
    ⟨c, rest, i, hpending, hd, hstep⟩
  · rw [hstep] at h
    cases h
    exact SameElements.refl s
  · exact absurd hpending (noReset rest)
  · rw [hstep] at h
    cases h
    exact SameElements.refl s
  · rw [hstep] at h
    rcases exec_accepts_or_rejects h with ⟨-, ⟨seed, rfl⟩ | hphase⟩ | ⟨rfl, -⟩ | ⟨rfl, -⟩
    · exact absurd hd (noInit c rest seed hpending)
    · exact absurd (hs.symm.trans hphase) nofun
    · exact SameElements.refl s
    · exact SameElements.refl s

/-- Settles O22: an instruction that is executed finds room in the buffer; everything else a step does always answers. -/
theorem stepNeverStops : Obligations.StepNeverStops := by
  intro s hs
  rcases step_cases s with ⟨-, hstep⟩ | ⟨rest, -, hstep⟩ | ⟨c, rest, e, -, -, hstep⟩ | ⟨c, rest, i, -, -, hstep⟩
  · exact ⟨_, hstep⟩
  · exact ⟨_, hstep⟩
  · exact ⟨_, hstep⟩
  · rw [hstep]
    exact exec_next_of_cursor_le i hs

/-- An instruction moves the phase only if it is INIT, or FINALIZE in `ABSORB` (R29). -/
theorem exec_phase_cases {i : Instr} {s t : State} (h : exec i s = .next t) :
    t.phase = s.phase ∨ ((∃ seed, i = .init seed) ∧ t.phase = .absorb) ∨
      (i = .finalize ∧ s.phase = .absorb ∧ t.phase = .done) := by
  cases answer_of_exec h with
  | opened seed => exact .inr (.inl ⟨⟨seed, rfl⟩, rfl⟩)
  | rejectedUninit notInit phase => exact .inl rfl
  | rejectedDone notInit phase => exact .inl rfl
  | dropped b phase => exact .inl rfl
  | stored store c phase room => exact .inl (putByte_phase c (accept s))
  | closed phase room => exact .inr (.inr ⟨rfl, phase, emitDigest_phase _⟩)

/-- Settles O26: idling and rejecting keep the phase; an instruction moves it as INIT or FINALIZE. -/
theorem phaseMovesOnlySo : Obligations.PhaseMovesOnlySo := by
  intro s t h hmoved
  rcases step_cases s with ⟨-, hstep⟩ | ⟨rest, hpending, hstep⟩ | ⟨c, rest, e, -, -, hstep⟩ |
    ⟨c, rest, i, hpending, hd, hstep⟩ <;> rw [hstep] at h
  case inl => cases h; exact absurd rfl hmoved
  case inr.inl => cases h; exact .inl ⟨rest, hpending, rfl⟩
  case inr.inr.inl => cases h; exact absurd rfl hmoved
  case inr.inr.inr =>
    rcases exec_phase_cases h with hsame | ⟨⟨seed, rfl⟩, hphase⟩ | ⟨rfl, hs, hphase⟩
    · exact absurd hsame hmoved
    · exact .inr (.inl ⟨c, rest, seed, hpending, hd, hphase⟩)
    · exact .inr (.inr ⟨c, rest, hpending, hd, hs, hphase⟩)

/-! ## The invariant -/

/-- Only FINALIZE enters `DONE`, with the digest of the output it leaves; in `DONE` no other command touches either (R107). -/
theorem exec_keeps_digestMatchesOut {i : Instr} {s t : State} (hs : DigestMatchesOut s) (h : exec i s = .next t) :
    DigestMatchesOut t := by
  have notDone {u : State} (hu : u.phase = .absorb) : DigestMatchesOut u := fun hdone => by simp [hu] at hdone
  cases answer_of_exec h with
  | opened seed => exact notDone rfl
  | rejectedUninit notInit phase => exact hs
  | rejectedDone notInit phase => exact hs
  | dropped b phase => exact notDone phase
  | stored store c phase room => exact notDone ((putByte_phase c (accept s)).trans phase)
  | closed phase room =>
    obtain ⟨-, -, hcursor, -⟩ := closeStream_frame (s := accept s) room
    exact fun _ => ⟨(emitDigest_cursor _).trans hcursor, by rw [emitDigest_digest, emitDigest_out]⟩

/-- A code is signalled only by the phase check, which keeps the phase it found (R122). -/
theorem exec_rejMatchesPhase {i : Instr} {s t : State} (h : exec i s = .next t) : RejMatchesPhase t := by
  rcases exec_accepts_or_rejects h with ⟨hrej, -⟩ | ⟨rfl, hphase, -⟩ | ⟨rfl, hphase, -⟩
  · simp [RejMatchesPhase, hrej]
  · exact ⟨fun _ => hphase, nofun⟩
  · exact ⟨nofun, fun _ => hphase⟩

theorem exec_keeps_inv {i : Instr} {s t : State} (hs : Inv s) (h : exec i s = .next t) : Inv t := by
  obtain ⟨hcursor, hdigest, -⟩ := hs
  exact ⟨exec_cursor_le hcursor h, exec_keeps_digestMatchesOut hdigest h, exec_rejMatchesPhase h⟩

/-- Settles O21: `rst` establishes the invariant, idling and rejecting a reserved word write `rej` alone, and every instruction
keeps it. -/
theorem stepKeepsInv : Obligations.StepKeepsInv := by
  intro s t hs h
  have rejOnly {code : RejCode} (r : List HostEvent) (h2 : code ≠ .notInitialised) (h3 : code ≠ .afterFinalize) :
      Inv (raiseReject code (takeEvent r s)) := by
    obtain ⟨hcursor, hdigest, -⟩ := hs
    exact ⟨hcursor, hdigest, fun hrej => absurd hrej h2, fun hrej => absurd hrej h3⟩
  rcases step_cases s with ⟨-, hstep⟩ | ⟨rest, -, hstep⟩ | ⟨c, rest, e, -, -, hstep⟩ | ⟨c, rest, i, -, -, hstep⟩ <;>
    rw [hstep] at h
  case inl => cases h; exact rejOnly s.pending nofun nofun
  case inr.inl => cases h; exact resetMeetsInv
  case inr.inr.inl => cases h; exact rejOnly rest nofun nofun
  case inr.inr.inr => exact exec_keeps_inv (s := takeEvent rest s) hs h

end Sys2Proof.Machine

namespace Sys2Proof.Machine

/-! ## INGEST and INGESTF in `ABSORB` (R91, R95, R97) -/

section

variable {s : State} (b : Byte)

/-- INGEST under PUT's precondition is PUT (R95). -/
theorem exec_ingest_of_absorb (hphase : s.phase = .absorb) (hcursor : CursorInRange s) :
    exec (.ingest b) s = .next (putByte b (accept s)) := by
  rw [exec_ingest, execIngest, inAbsorb_of_absorb hphase]
  exact withRoom_of_le hcursor

/-- INGESTF of a byte that FILTER drops does the phase check and nothing after it (R97). -/
theorem exec_ingestf_of_drop {b : Byte} (hdrop : filterByte b = .drop) : exec (.ingestf b) = inAbsorb .next := by
  have hstore : storeFiltered b = .next := by
    funext s
    rw [storeFiltered, hdrop]
  funext s
  rw [exec_ingestf, execIngestf, hstore]

/-- INGESTF of a byte that FILTER keeps is INGEST of what it keeps, in every phase (R97). -/
theorem exec_ingestf_of_keep {b c : Byte} (hkeep : filterByte b = .keep c) : exec (.ingestf b) = exec (.ingest c) := by
  have hstore : storeFiltered b = storeByte c := by
    funext s
    rw [storeFiltered, hkeep]
  funext s
  rw [exec_ingestf, exec_ingest, execIngestf, execIngest, hstore]

end

/-- Settles O12: PUT with room left after it stores one byte and advances the cursor. -/
theorem ingestStoresByte : Obligations.IngestStoresByte := by
  intro b s hphase hroom
  have hrun := exec_ingest_of_absorb b hphase (Nat.le_of_lt hroom)
  rw [putByte_of_lt (s := accept s) hroom] at hrun
  refine ⟨_, hrun, fun k hk => ?_, fun k hk => ?_, cursor_succ_toNat (Nat.le_of_lt hroom),
    rfl, rfl, rfl, rfl, rfl, rfl, rfl, rfl⟩
  · rw [setCursor_buf, accept_cursor, ← hk]
    exact bufByte_memWrite_same
  · exact bufByte_memWrite_of_ne (Ne.symm hk)

/-- Settles O13: PUT of the byte that fills the buffer stores it and flushes. -/
theorem ingestFlushesFullBlock : Obligations.IngestFlushesFullBlock := by
  intro b s hphase hlast
  have hcursor : s.cursor.toNat = 31 := by rw [hlast]; rfl
  have hrun := exec_ingest_of_absorb b hphase (Nat.le_of_eq hcursor)
  rw [putByte_of_last (s := accept s) hcursor] at hrun
  refine ⟨_, hrun, fun k hk => ?_, fun k hk => ?_, flush_cursor _, ?_, ?_, fun j => ?_, ?_, ?_, ?_, ?_, ?_⟩
  · rw [flush_buf, setCursor_buf, ← hk]
    exact bufByte_memWrite_same
  · rw [flush_buf, setCursor_buf]
    exact bufByte_memWrite_of_ne (Ne.symm hk)
  · rw [flush_ctr]
    exact ctrValue_incCounter s.ctr
  · rw [flush_out, flush_buf, flush_ctr]
    rfl
  · rw [flush_sum, flush_out]
    exact addLanes_getElem s.sum _ j
  all_goals simp

/-- Settles O15: a dropped byte is only accepted, a kept one is ingested as FILTER folds it. -/
theorem ingestfFiltersByte : Obligations.IngestfFiltersByte := by
  intro b s hphase hcursor
  by_cases hblank : b = 0x20 ∨ b = 0x09
  · have hdrop : filterByte b = .drop := by rw [filterByte_eq, if_pos hblank]
    refine ⟨accept s, ?_, rfl, rfl, ?_⟩
    · rw [exec_ingestf_of_drop hdrop, inAbsorb_of_absorb hphase]
    rw [if_pos hblank]
    exact SameElements.refl s
  · have hkeep : filterByte b = .keep (if 0x41 ≤ b ∧ b ≤ 0x5A then b + 0x20 else b) := by
      rw [filterByte_eq, if_neg hblank, apply_ite Filtered.keep]
    have hrun := exec_ingest_of_absorb (if 0x41 ≤ b ∧ b ≤ 0x5A then b + 0x20 else b) hphase hcursor
    refine ⟨_, (congrFun (exec_ingestf_of_keep hkeep) s).trans hrun, by simp, by simp, ?_⟩
    rwa [if_neg hblank]

/-! ## The message held (R34) -/

/-- Settles O41: INIT's cursor, counter and digest sum are those of no bytes. -/
theorem initOpensStream : Obligations.InitOpensStream := exec_init_opens_stream

/-- Settles O42: INGEST brings its byte to the message held, whose full blocks the counter words count. -/
theorem ingestExtendsStream : Obligations.IngestExtendsStream := by
  intro seed m b s h
  obtain ⟨t, hrun, hstream⟩ := h.exec_store (i := .ingest b) rfl
  have hheld : StreamState seed (m ++ [b]) t := hstream
  exact ⟨t, hrun, hheld, by rw [hheld.counter, ctrValue_counterWords]⟩

/-- Filtering is byte by byte (R104). -/
theorem filterBytes_append (m m' : List Byte) : filterBytes (m ++ m') = filterBytes m ++ filterBytes m' :=
  List.filterMap_append

theorem filterBytes_singleton (b : Byte) : filterBytes [b] = (filterByte b).toOption.toList := by
  cases h : (filterByte b).toOption <;> simp [filterBytes, h]

/-- Settles O43: INGESTF brings the byte that FILTER keeps, if it keeps one. -/
theorem ingestfExtendsStream : Obligations.IngestfExtendsStream := by
  intro seed m b s h
  obtain ⟨t, hrun, hstream⟩ := h.exec_store (i := .ingestf b) rfl
  refine ⟨t, hrun, ?_⟩
  rwa [filterBytes_append, filterBytes_singleton]

/-! ## What no instruction reads: `rej` and what is pending (log entries 3 and 4) -/

/-- The same elements with other outputs and other events to come. -/
def withPort (r : RejCode) (p : List HostEvent) (s : State) : State := { s with rej := r, pending := p }

/-- The same outcome with other events to come. -/
def repend (p : List HostEvent) (o : Result) : Result := andThen o fun t => .next (takeEvent p t)

/-- States with the same elements differ at the port alone. -/
theorem SameElements.of_withPort {s t : State} (h : SameElements s t) : t = withPort t.rej t.pending s := by
  obtain ⟨hseed, hbuf, hctr, hcursor, hsum, hout, hphase, hdigest⟩ := h
  rw [withPort, hseed, hbuf, hctr, hcursor, hsum, hout, hphase, hdigest]

section

variable (p : List HostEvent)

theorem putByte_takeEvent (c : Byte) : Function.Commute (putByte c) (takeEvent p) := by
  intro s
  rw [putByte_eq_ite, putByte_eq_ite, apply_ite (takeEvent p)]
  rfl

theorem padLoop_takeEvent (n : Nat) : Function.Commute (padLoop n) (takeEvent p) := by
  intro s
  induction n generalizing s with
  | zero => rfl
  | succ n ih =>
    by_cases hzero : s.cursor = 0
    · rw [padLoop_of_zero_cursor hzero, padLoop_of_zero_cursor (s := takeEvent p s) hzero]
    · rw [padLoop_succ_of_nonzero hzero, padLoop_succ_of_nonzero (s := takeEvent p s) hzero, putByte_takeEvent, ih]

theorem closeStream_takeEvent : Function.Commute closeStream (takeEvent p) :=
  (padLoop_takeEvent p _).comp_left (putByte_takeEvent p _)

theorem emitDigest_takeEvent : Function.Commute emitDigest (takeEvent p) := fun _ => rfl

theorem withRoom_takeEvent {f : State → State} (hf : Function.Commute f (takeEvent p)) (s : State) :
    withRoom f (takeEvent p s) = repend p (withRoom f s) := by
  rw [withRoom, withRoom, apply_ite (repend p), hf]
  rfl

theorem storeFiltered_takeEvent (b : Byte) (s : State) : storeFiltered b (takeEvent p s) = repend p (storeFiltered b s) := by
  rw [storeFiltered, storeFiltered]
  cases filterByte b with
  | drop => rfl
  | keep c => exact withRoom_takeEvent p (putByte_takeEvent p c) s

/-- The phase check writes `rej` in every phase, so it does not pass on what it showed (R121). -/
theorem inAbsorb_withPort {k : State → Result} (hk : ∀ s, k (takeEvent p s) = repend p (k s)) (r : RejCode) (s : State) :
    inAbsorb k (withPort r p s) = repend p (inAbsorb k s) := by
  cases hphase : s.phase with
  | uninit => rw [inAbsorb_of_uninit hphase, inAbsorb_of_uninit (s := withPort r p s) hphase]; rfl
  | done => rw [inAbsorb_of_done hphase, inAbsorb_of_done (s := withPort r p s) hphase]; rfl
  | absorb =>
    rw [inAbsorb_of_absorb hphase, inAbsorb_of_absorb (s := withPort r p s) hphase]
    exact hk (accept s)

/-- An instruction answers alike whatever `rej` showed and whatever is pending, which it leaves (log entries 3 and 4). -/
theorem exec_withPort (i : Instr) (r : RejCode) (s : State) : exec i (withPort r p s) = repend p (exec i s) := by
  cases i with
  | init seed => rfl
  | ingest b => exact inAbsorb_withPort p (withRoom_takeEvent p (putByte_takeEvent p b)) r s
  | ingestf b => exact inAbsorb_withPort p (storeFiltered_takeEvent p b) r s
  | finalize =>
    exact inAbsorb_withPort p (withRoom_takeEvent p ((emitDigest_takeEvent p).comp_left (closeStream_takeEvent p))) r s

end

/-! ## Folded ingestion (R104) -/

/-- From states with the same elements an instruction answers states with the same elements. -/
theorem SameElements.exec_next {s s' t : State} (h : SameElements s s') {i : Instr} (hrun : exec i s = .next t) :
    ∃ t', exec i s' = .next t' ∧ SameElements t t' := by
  refine ⟨takeEvent s'.pending t, ?_, SameElements.refl t⟩
  rw [h.of_withPort, exec_withPort, hrun]
  rfl

theorem SameElements.trans {s t u : State} (h : SameElements s t) (h' : SameElements t u) : SameElements s u := by
  rw [h.of_withPort] at h'
  exact h'

/-- In every phase INGESTF of a dropped byte changes no element (R96, R97). -/
theorem exec_ingestf_of_drop_sameElements {b : Byte} (hdrop : filterByte b = .drop) {s t : State}
    (h : exec (.ingestf b) s = .next t) : SameElements t s := by
  rw [exec_ingestf_of_drop hdrop] at h
  rcases inAbsorb_cases .next s with ⟨-, hrun⟩ | ⟨-, hrun⟩ | ⟨-, hrun⟩ <;>
    · rw [hrun] at h
      cases h
      exact SameElements.refl s

theorem filterBytes_cons_of_drop {b : Byte} (h : filterByte b = .drop) (m : List Byte) :
    filterBytes (b :: m) = filterBytes m := by
  simp [filterBytes, h, Filtered.toOption]

theorem filterBytes_cons_of_keep {b c : Byte} (h : filterByte b = .keep c) (m : List Byte) :
    filterBytes (b :: m) = c :: filterBytes m := by
  simp [filterBytes, h, Filtered.toOption]

/-- The filtered text, spelled out (R104). -/
theorem filterBytes_eq_map_filter (m : List Byte) : filterBytes m =
    (m.filter fun c => c ≠ 0x20 ∧ c ≠ 0x09).map fun c => if 0x41 ≤ c ∧ c ≤ 0x5A then c + 0x20 else c := by
  induction m with
  | nil => rfl
  | cons b m ih =>
    by_cases hblank : b = 0x20 ∨ b = 0x09
    · rw [filterBytes_cons_of_drop (by rw [filterByte_eq, if_pos hblank]), ih, List.filter_cons_of_neg]
      simpa [imp_iff_not_or] using hblank
    · rw [filterBytes_cons_of_keep (by rw [filterByte_eq, if_neg hblank, ← apply_ite Filtered.keep]), ih,
        List.filter_cons_of_pos, List.map_cons]
      simpa using hblank

/-- Byte by byte the two sequences keep to the same elements, and to cursors in range. -/
theorem execAll_folded_filtered (m : List Byte) {s s' : State} (hcursor : CursorInRange s) (h : SameElements s s') :
    ∃ t t', execAll (ingestFoldedAll m) s = .next t ∧ execAll (ingestAll (filterBytes m)) s' = .next t' ∧
      SameElements t t' := by
  induction m generalizing s s' with
  | nil => exact ⟨s, s', rfl, rfl, h⟩
  | cons b m ih =>
    obtain ⟨u, hu⟩ := exec_next_of_cursor_le (.ingestf b) hcursor
    have hrange := exec_cursor_le hcursor hu
    have hfolded : execAll (ingestFoldedAll (b :: m)) s = execAll (ingestFoldedAll m) u := by
      rw [ingestFoldedAll, List.map_cons, execAll_cons, hu, andThen_next, ingestFoldedAll]
    rw [hfolded]
    cases hfilter : filterByte b with
    | drop =>
      rw [filterBytes_cons_of_drop hfilter]
      exact ih hrange ((exec_ingestf_of_drop_sameElements hfilter hu).trans h)
    | keep c =>
      rw [exec_ingestf_of_keep hfilter] at hu
      obtain ⟨u', hu', hsame⟩ := h.exec_next hu
      rw [filterBytes_cons_of_keep hfilter, ingestAll, List.map_cons, execAll_cons, hu', andThen_next]
      exact ih hrange hsame

/-- Settles O49: the two sequences run in step, a dropped byte being a step of the first alone. -/
theorem foldedIngestionIsFilteredIngestion : Obligations.FoldedIngestionIsFilteredIngestion :=
  ⟨filterBytes_eq_map_filter, fun m s hs => execAll_folded_filtered m hs (SameElements.refl s)⟩

end Sys2Proof.Machine

namespace Sys2Proof.Machine

/-! ## A run at the command port (R133, R150) -/

/-- One step and then the rest of the run. -/
theorem run_succ (k : Nat) (s : State) : core.run (k + 1) s = andThen (step s) (core.run k) := by
  have hstep : core.step s = step s := rfl
  simp only [Host.Core.run, hstep]
  cases step s with
  | next t => rfl
  | fault r => rfl
  | refused r => rfl

/-- Events to come do not change what an instruction answers (log entry 4). -/
theorem exec_takeEvent (p : List HostEvent) (i : Instr) (s : State) : exec i (takeEvent p s) = repend p (exec i s) :=
  exec_withPort p i s.rej s

/-- Encoded commands are taken one a step and executed, and what was sent after them stays pending (R61). -/
theorem run_commandsOf (is : List Instr) (rest : List HostEvent) (s : State) :
    core.run is.length (takeEvent (commandsOf is ++ rest) s) = execAll is (takeEvent rest s) := by
  induction is generalizing s with
  | nil => rfl
  | cons i is ih =>
    have hstep : step (takeEvent (commandsOf (i :: is) ++ rest) s) = exec i (takeEvent (commandsOf is ++ rest) s) :=
      step_of_decode rfl (decodeEncodeRoundTrip i)
    rw [List.length_cons, run_succ, hstep, execAll_cons, exec_takeEvent, exec_takeEvent]
    cases exec i s with
    | next t => exact ih t
    | fault r => rfl
    | refused r => rfl

theorem execAll_pending {is : List Instr} {s t : State} (h : execAll is s = .next t) : t.pending = s.pending := by
  induction is generalizing s with
  | nil => cases h; rfl
  | cons i is ih =>
    obtain ⟨u, hu, hrest⟩ := andThen_eq_next h
    rw [ih hrest, exec_pending hu]

/-- In `ABSORB` a command that answers is accepted (R121). -/
theorem exec_rej_of_absorb {i : Instr} {s t : State} (hs : s.phase = .absorb) (h : exec i s = .next t) :
    t.rej = .accepted := by
  rcases exec_accepts_or_rejects h with ⟨hrej, -⟩ | ⟨-, hphase, -⟩ | ⟨-, hphase, -⟩
  · exact hrej
  · exact absurd (hs.symm.trans hphase) nofun
  · exact absurd (hs.symm.trans hphase) nofun

/-- INIT, the bytes and FINALIZE (R150). -/
theorem hashRun_length (seed : Seed) (m : List Byte) : (hashRun seed m).length = m.length + 2 := by
  simp [hashRun, ingestAll]

/-- Settles O45: the run at the port is the sequence of instructions, which opens, extends and ends the message. -/
theorem commandPortRunComputesDigest : Obligations.CommandPortRunComputesDigest := by
  intro seed m s rest
  obtain ⟨u, hinit, hopen⟩ := exec_init_opens_stream seed (takeEvent rest s)
  obtain ⟨v, hbytes, hstream⟩ := hopen.execAll_ingestAll m
  obtain ⟨t, hfinal, hphase, -, -, -, hdigest⟩ := hstream.after_finalize
  have hrun : execAll (hashRun seed m) (takeEvent rest s) = .next t := by
    simp only [hashRun, execAll_cons, execAll_append, execAll_nil, hinit, hbytes, hfinal, andThen_next]
  have hrej : t.rej = .accepted := exec_rej_of_absorb hstream.inAbsorbPhase hfinal
  refine ⟨t, ?_, ?_, execAll_pending hrun⟩
  · rw [← hashRun_length seed m]
    exact (run_commandsOf (hashRun seed m) rest s).trans hrun
  · rw [hostView, status_of_phase hphase, hdigest, hrej]
    rfl

/-! ## Stale bytes (R52) -/

section

variable {s s' : State}

theorem SameStream.cursor_le (h : SameStream s s') (hcursor : CursorInRange s) : CursorInRange s' := by
  obtain ⟨-, -, -, hsame, -⟩ := h
  rwa [CursorInRange, ← hsame]

/-- A flush makes of states with the same buffer states that cannot be told apart: it starts the buffer anew (R92). -/
theorem SameStream.of_flush (hphase : s.phase = s'.phase) (hseed : s.seed = s'.seed) (hctr : s.ctr = s'.ctr)
    (hsum : s.sum = s'.sum) (hbuf : s.buf = s'.buf) : SameStream (flush s) (flush s') := by
  refine ⟨?_, ?_, ?_, ?_, ?_, fun k _ => ?_⟩ <;> simp [hphase, hseed, hctr, hsum, hbuf]

/-- The byte PUT stores covers the first stale one (R91). -/
theorem SameStream.bufByte_memWrite (h : SameStream s s') (c : Byte) (k : Fin 32) (hk : k.val ≤ s.cursor.toNat) :
    bufByte (memWrite s.cursor.toNat c s).buf k = bufByte (memWrite s.cursor.toNat c s').buf k := by
  obtain ⟨-, -, -, -, -, hbuf⟩ := h
  rcases Nat.lt_or_eq_of_le hk with hlt | heq
  · rw [bufByte_memWrite_of_ne (by omega), bufByte_memWrite_of_ne (by omega), hbuf k hlt]
  · rw [← heq, bufByte_memWrite_same, bufByte_memWrite_same]

theorem buffer_ext {buf buf' : Buffer} (h : ∀ k, bufByte buf k = bufByte buf' k) : buf = buf' :=
  Vector.ext fun k hk => h ⟨k, hk⟩

/-- PUT reads no byte at or above the cursor but the one it has stored (R52, R91). -/
theorem SameStream.after_putByte (h : SameStream s s') (hcursor : CursorInRange s) (c : Byte) :
    SameStream (putByte c s) (putByte c s') := by
  have hbytes := h.bufByte_memWrite c
  obtain ⟨hphase, hseed, hctr, hsame, hsum, -⟩ := h
  rcases putByte_cases c hcursor with ⟨hlt, hput⟩ | ⟨hlast, hput⟩
  · rw [hput, putByte_of_lt (hsame ▸ hlt), ← hsame]
    refine ⟨hphase, hseed, hctr, rfl, hsum, fun k hk => hbytes k ?_⟩
    rw [setCursor_cursor, cursor_succ_toNat hcursor] at hk
    omega
  · rw [hput, putByte_of_last (hsame ▸ hlast)]
    rw [hlast] at hbytes
    exact .of_flush hphase hseed hctr hsum (buffer_ext fun k => hbytes k (by omega))

/-- The closing of the stream stores a byte over every stale one before its flush (R52, R101). -/
theorem SameStream.after_closeStream (h : SameStream s s') (hcursor : CursorInRange s) :
    SameStream (closeStream s) (closeStream s') := by
  obtain ⟨hphase, hseed, hctr, hsame, hsum, hbuf⟩ := h
  obtain ⟨b, hclose, hpending, hmark, hpad⟩ := closeStream_spec s hcursor
  obtain ⟨b', hclose', hpending', hmark', hpad'⟩ := closeStream_spec s' (hsame ▸ hcursor)
  rw [← hsame] at hpending' hmark' hpad'
  have hb : b = b' := buffer_ext fun k => by
    rcases Nat.lt_trichotomy k.val s.cursor.toNat with hk | hk | hk
    · rw [hpending k hk, hpending' k hk, hbuf k hk]
    · rw [hmark k hk, hmark' k hk]
    · rw [hpad k hk, hpad' k hk]
  rw [hclose, hclose']
  exact .of_flush hphase hseed hctr hsum hb

/-- INGEST of each byte of a message keeps to states that cannot be told apart (R52, R95). -/
theorem SameStream.execAll_ingestAll (h : SameStream s s') (hs : s.phase = .absorb) (hcursor : CursorInRange s)
    (m : List Byte) : ∃ t t', execAll (ingestAll m) s = .next t ∧ execAll (ingestAll m) s' = .next t' ∧
      SameStream t t' ∧ t.phase = .absorb ∧ CursorInRange t := by
  induction m generalizing s s' with
  | nil => exact ⟨s, s', rfl, rfl, h, hs, hcursor⟩
  | cons b m ih =>
    have ⟨hphase, _⟩ := h
    have hrun := exec_ingest_of_absorb b hs hcursor
    have hrun' := exec_ingest_of_absorb b (hphase.symm.trans hs) (h.cursor_le hcursor)
    have hnext : SameStream (putByte b (accept s)) (putByte b (accept s')) :=
      SameStream.after_putByte (s := accept s) (s' := accept s') h hcursor b
    simp only [ingestAll, List.map_cons, execAll_cons, hrun, hrun', andThen_next]
    exact ih hnext (by simpa using hs) (putByte_cursor_le (s := accept s) hcursor)

/-- The digest is made of the digest sum and the Seed (R106). -/
theorem SameStream.hostDigest_emitDigest (h : SameStream s s') :
    hostDigest (emitDigest s) = hostDigest (emitDigest s') := by
  obtain ⟨-, hseed, -, -, hsum, -⟩ := h
  rw [hostDigest_of_done (emitDigest_phase s), hostDigest_of_done (emitDigest_phase s'), emitDigest_digest,
    emitDigest_digest, hseed, hsum]

end

/-- Settles O47: PUT and the closing of the stream keep to states that cannot be told apart, which have one digest. -/
theorem staleBytesAreNeverRead : Obligations.StaleBytesAreNeverRead := by
  intro m s s' h hs hcursor
  obtain ⟨u, u', hu, hu', hsame, hphase, hrange⟩ := h.execAll_ingestAll hs hcursor m
  have ⟨hphase', _⟩ := hsame
  have hclosed : SameStream (closeStream (accept u)) (closeStream (accept u')) :=
    SameStream.after_closeStream (s := accept u) (s' := accept u') hsame hrange
  refine ⟨_, _, ?_, ?_, hclosed.hostDigest_emitDigest, ?_⟩
  · simp only [execAll_append, hu, execAll_cons, execAll_nil, exec_finalize_of_absorb hphase hrange, andThen_next]
  · simp only [execAll_append, hu', execAll_cons, execAll_nil,
      exec_finalize_of_absorb (hphase'.symm.trans hphase) (hsame.cursor_le hrange), andThen_next]
  · rw [hostDigest_of_done (emitDigest_phase _)]
    exact Option.some_ne_none _

end Sys2Proof.Machine

namespace Sys2Proof.Machine

/-! ## Bytes in words (R7, R41, R42) -/

/-- Byte `k` of a word as a number (R7). -/
theorem leByte_toNat (w : Word) (k : Nat) : (leByte w k).toNat = w.toNat / 2 ^ (8 * k) % 2 ^ 8 := by
  rw [leByte, BitVec.extractLsb'_toNat, Nat.shiftRight_eq_div_pow]

/-- Byte `k` of a word of four bytes is the `k`-th of them (R7). -/
theorem leByte_leWord (b0 b1 b2 b3 : Byte) (k : Fin 4) : leByte (leWord b0 b1 b2 b3) k.val = #v[b0, b1, b2, b3][k] := by
  have h0 := b0.isLt
  have h1 := b1.isLt
  have h2 := b2.isLt
  have h3 := b3.isLt
  apply BitVec.eq_of_toNat_eq
  rw [leByte_toNat, leWord_toNat]
  fin_cases k <;> simp <;> omega

/-- A word is its four bytes, least significant first (R7). -/
theorem leWord_leByte (w : Word) : leWord (leByte w 0) (leByte w 1) (leByte w 2) (leByte w 3) = w := by
  have hw := w.isLt
  apply BitVec.eq_of_toNat_eq
  simp only [leWord_toNat, leByte_toNat]
  omega

/-- Settles O29: a data word's bytes are the buffer's, and the counter words stand after the data words. -/
theorem blockViewIsLittleEndian : Obligations.BlockViewIsLittleEndian := by
  refine fun buf ctr => ⟨fun j k => ?_, fun k => ?_⟩
  · have hword : (blockView buf ctr)[j.val] = dataWord buf j := by simp [blockView, mkBlock]
    rw [hword, dataWord, leByte_leWord]
    fin_cases k <;> rfl
  · simp [blockView, mkBlock]

/-- Settles O30: the digest's bytes are the words' bytes, and a word is made of its bytes. -/
theorem serialiseIsLittleEndian : Obligations.SerialiseIsLittleEndian := by
  refine ⟨serialise_getElem, fun o o' h => Vector.ext fun j hj => ?_⟩
  have hbyte (k : Nat) (hk : k < 4) : leByte o[j] k = leByte o'[j] k := by
    have hsame := serialise_getElem o ⟨j, hj⟩ ⟨k, hk⟩
    rw [h, serialise_getElem o' ⟨j, hj⟩ ⟨k, hk⟩] at hsame
    exact hsame.symm
  rw [← leWord_leByte o[j], hbyte 0 (by decide), hbyte 1 (by decide), hbyte 2 (by decide), hbyte 3 (by decide),
    leWord_leByte]

/-! ## MIX as two folds (R77, R79) -/

section

variable (block : Block) (seed : Seed) (m : MixState)

/-- A fold exclusive-ors four to eleven of the working words into the output (R77). -/
theorem foldOut_eq_xorOut : foldOut m = xorOut (Vector.ofFn fun i : Fin 8 => m.t[i.val + 4]) m := by
  simp [foldOut, xorOut]

theorem iterate_innerRound_out (n : Nat) : ((innerRound seed)^[n] m).out = m.out := by
  induction n with
  | zero => rfl
  | succ n ih => rw [Function.iterate_succ_apply', innerRound_out, ih]

/-- Two outer rounds are thirty-two inner rounds with the two folds at their places (R72, R77). -/
theorem outerRound_twice_out (i : Fin 8) : ((outerRound seed)^[2] m).out[i] =
    m.out[i] ^^^ ((innerRound seed)^[16] m).t[i.val + 4] ^^^ ((innerRound seed)^[32] m).t[i.val + 4] := by
  have hsecond : (innerRound seed)^[16] (outerRound seed m) =
      xorOut (Vector.ofFn fun i : Fin 8 => ((innerRound seed)^[16] m).t[i.val + 4]) ((innerRound seed)^[32] m) := by
    have hcommute (d : Lanes) (m : MixState) := (innerRound_xorOut seed d).iterate_left 16 m
    rw [outerRound, foldOut_eq_xorOut, hcommute, ← Function.iterate_add_apply]
    rfl
  have hrounds : (outerRound seed)^[2] m = foldOut ((innerRound seed)^[16] (outerRound seed m)) := rfl
  rw [hrounds, foldOut_out, hsecond, xorOut_out, iterate_innerRound_out]
  simp [xorOut]

end

/-- Settles O35: the output starts as the Seed's last words and takes the two folds. -/
theorem mixResultIsTwoFolds : Obligations.MixResultIsTwoFolds := by
  intro block seed i
  rw [mix, outerRound_twice_out, mixSetup_out]
  rfl

/-! ## MIX one step at a time (R83, R84, R86) -/

section

variable (block : Block) (seed : Seed) (m : MixState)

/-- A position's steps of an inner round, in order, are the inner round: only the first advances the round sum (R73, R76). -/
theorem foldl_mixStepAt (loop : Fin 2) (rnd : Fin 16) :
    stepOrder.foldl (fun m i => mixStepAt seed ⟨loop, rnd, i⟩ m) m = innerRound seed m := by
  simp [stepOrder, innerRound, mixStepAt]

/-- The steps of an inner round before index `k`. -/
def stepsBefore (loop : Fin 2) (rnd : Fin 16) (k : Nat) (m : MixState) : MixState :=
  (stepOrder.take k).foldl (fun m i => mixStepAt seed ⟨loop, rnd, i⟩ m) m

/-- The step order is ascending (R76). -/
theorem stepOrder_getElem? {k : Nat} (hk : k < 12) : stepOrder[k]? = some (Fin.ofNat 12 k) := by
  interval_cases k <;> rfl

theorem stepsBefore_succ (loop : Fin 2) (rnd : Fin 16) {k : Nat} (hk : k < 12) :
    stepsBefore seed loop rnd (k + 1) m = mixStepAt seed ⟨loop, rnd, Fin.ofNat 12 k⟩ (stepsBefore seed loop rnd k m) := by
  rw [stepsBefore, List.take_add_one, stepOrder_getElem? hk, List.foldl_append]
  rfl

/-- Up to the last index the steps of an inner round follow each other (R84). -/
theorem iterate_mixAdvance_idx (loop : Fin 2) (rnd : Fin 16) {k : Nat} (hk : k ≤ 11) :
    (mixAdvance seed)^[k] ⟨m, some ⟨loop, rnd, 0⟩⟩ =
      ⟨stepsBefore seed loop rnd k m, some ⟨loop, rnd, Fin.ofNat 12 k⟩⟩ := by
  induction k with
  | zero => rfl
  | succ k ih =>
    have hidx : (Fin.ofNat 12 k).val = k := Nat.mod_eq_of_lt (by omega)
    have hnext : Fin.ofNat 12 k + 1 = Fin.ofNat 12 (k + 1) := Fin.ofNat_add k 1
    rw [Function.iterate_succ_apply', ih (by omega), mixAdvance_of_idx_lt _ _ (hidx.trans_lt hk),
      stepsBefore_succ seed m loop rnd (by omega), hnext]

/-- The last step of an inner round completes it (R76, R84). -/
theorem iterate_mixAdvance_innerRound (loop : Fin 2) (rnd : Fin 16) :
    ∃ u, mixStepAt seed ⟨loop, rnd, 11⟩ u = innerRound seed m ∧
      (mixAdvance seed)^[12] ⟨m, some ⟨loop, rnd, 0⟩⟩ = mixAdvance seed ⟨u, some ⟨loop, rnd, 11⟩⟩ := by
  refine ⟨stepsBefore seed loop rnd 11 m, ?_, ?_⟩
  · rw [← foldl_mixStepAt seed m loop rnd]
    rfl
  · rw [Function.iterate_succ_apply', iterate_mixAdvance_idx seed m loop rnd (Nat.le_refl _)]
    rfl

/-- Twelve steps are an inner round, after which the next one begins (R84). -/
theorem iterate_mixAdvance_of_rnd_lt (loop : Fin 2) {rnd : Fin 16} (hrnd : rnd.val < 15) :
    (mixAdvance seed)^[12] ⟨m, some ⟨loop, rnd, 0⟩⟩ = ⟨innerRound seed m, some ⟨loop, rnd + 1, 0⟩⟩ := by
  obtain ⟨u, hlast, hrun⟩ := iterate_mixAdvance_innerRound seed m loop rnd
  rw [hrun, mixAdvance_of_rnd_lt seed u rfl hrnd, hlast]

/-- The sixteenth inner round is followed by the fold and the next outer round, if there is one (R84). -/
theorem iterate_mixAdvance_of_rnd_last (loop : Fin 2) {rnd : Fin 16} (hrnd : rnd.val = 15) :
    (mixAdvance seed)^[12] ⟨m, some ⟨loop, rnd, 0⟩⟩ =
      ⟨foldOut (innerRound seed m), if loop = 0 then some ⟨1, 0, 0⟩ else none⟩ := by
  obtain ⟨u, hlast, hrun⟩ := iterate_mixAdvance_innerRound seed m loop rnd
  rw [hrun, mixAdvance_of_last seed u rfl hrnd, hlast]

/-- Inner rounds follow each other, twelve steps each (R84). -/
theorem iterate_mixAdvance_rnd (loop : Fin 2) {k : Nat} (hk : k ≤ 15) :
    (mixAdvance seed)^[12 * k] ⟨m, some ⟨loop, 0, 0⟩⟩ = ⟨(innerRound seed)^[k] m, some ⟨loop, Fin.ofNat 16 k, 0⟩⟩ := by
  rw [Function.iterate_mul]
  induction k with
  | zero => rfl
  | succ k ih =>
    have hrnd : (Fin.ofNat 16 k).val = k := Nat.mod_eq_of_lt (by omega)
    have hnext : Fin.ofNat 16 k + 1 = Fin.ofNat 16 (k + 1) := Fin.ofNat_add k 1
    rw [Function.iterate_succ_apply', ih (by omega), iterate_mixAdvance_of_rnd_lt seed _ loop (hrnd.trans_lt hk), hnext,
      Function.iterate_succ_apply']

/-- 192 steps are an outer round (R72, R83, R84). -/
theorem iterate_mixAdvance_outerRound (loop : Fin 2) :
    (mixAdvance seed)^[192] ⟨m, some ⟨loop, 0, 0⟩⟩ =
      ⟨outerRound seed m, if loop = 0 then some ⟨1, 0, 0⟩ else none⟩ := by
  calc (mixAdvance seed)^[192] ⟨m, some ⟨loop, 0, 0⟩⟩
      = (mixAdvance seed)^[12] ((mixAdvance seed)^[12 * 15] ⟨m, some ⟨loop, 0, 0⟩⟩) :=
        Function.iterate_add_apply _ 12 (12 * 15) _
    _ = ⟨foldOut (innerRound seed ((innerRound seed)^[15] m)), if loop = 0 then some ⟨1, 0, 0⟩ else none⟩ := by
        rw [iterate_mixAdvance_rnd seed m loop (Nat.le_refl _)]
        exact iterate_mixAdvance_of_rnd_last seed _ loop rfl
    _ = ⟨outerRound seed m, if loop = 0 then some ⟨1, 0, 0⟩ else none⟩ := by
        rw [← Function.iterate_succ_apply' (innerRound seed)]
        rfl

/-- 384 steps are the two outer rounds, and the MIX is complete (R83). -/
theorem iterate_mixAdvance_complete :
    (mixAdvance seed)^[384] (mixStart block seed) = ⟨(outerRound seed)^[2] (mixSetup block seed), none⟩ := by
  calc (mixAdvance seed)^[384] (mixStart block seed)
      = (mixAdvance seed)^[192] ((mixAdvance seed)^[192] (mixStart block seed)) :=
        Function.iterate_add_apply _ 192 192 _
    _ = (mixAdvance seed)^[192] ⟨outerRound seed (mixSetup block seed), some ⟨1, 0, 0⟩⟩ := by
        rw [mixStart, iterate_mixAdvance_outerRound, if_pos rfl]
    _ = ⟨(outerRound seed)^[2] (mixSetup block seed), none⟩ := by
        rw [iterate_mixAdvance_outerRound, if_neg (by decide)]
        rfl

/-- After its last step a MIX stays complete (R84). -/
theorem iterate_mixAdvance_of_le {n : Nat} (hn : 384 ≤ n) :
    (mixAdvance seed)^[n] (mixStart block seed) = ⟨(outerRound seed)^[2] (mixSetup block seed), none⟩ := by
  obtain ⟨k, rfl⟩ := Nat.exists_eq_add_of_le' hn
  rw [Function.iterate_add_apply, iterate_mixAdvance_complete]
  exact Function.iterate_fixed (mixAdvance_of_none seed rfl) k

/-- The accumulator is the word that the step has written; the fold leaves both (R74, R77, R86). -/
theorem mixAdvance_x {r : MixRun} {p : MixPos} (h : r.pos = some p) :
    (mixAdvance seed r).mix.x = (mixAdvance seed r).mix.t[p.idx] := by
  obtain ⟨m, _⟩ := r
  cases h
  have hstep : (mixStepAt seed p m).x = (mixStepAt seed p m).t[p.idx] := (mush_t_same ..).symm
  rw [mixAdvance_mix]
  split
  · exact hstep
  · exact hstep

end

/-- Settles O38: the positions by step number; the rounds by their steps, twelve to an inner round. -/
theorem steppedMixRefinesMix : Obligations.SteppedMixRefinesMix := by
  refine fun block seed => ⟨fun n hn => ?_, fun n hn => iterate_mixAdvance_of_le block seed hn, ?_⟩
  · have hloop : n / 192 % 2 = n / 192 := by omega
    exact ⟨posAt n, iterate_mixAdvance_pos block seed hn, (posAt_loop_val n).trans hloop, posAt_rnd_val n, posAt_idx_val n⟩
  · rw [iterate_mixAdvance_complete, mix]

/-- Settles O40: the set-up takes word 11, and step number `n` writes word `n mod 12`. -/
theorem accumulatorIsLastWord : Obligations.AccumulatorIsLastWord := by
  intro block seed n hn
  cases n with
  | zero =>
    have hlast : (mixSetup block seed).x = (mixSetup block seed).t[11] := rfl
    exact hlast
  | succ n =>
    have hword : (n + 1 + 11) % 12 = (posAt n).idx.val := by rw [posAt_idx_val]; omega
    simp only [Function.iterate_succ_apply', hword]
    exact mixAdvance_x seed (iterate_mixAdvance_pos block seed hn)

/-! ## The padded form (R108, U9) -/

/-- A padded message without its zeros and its end marker. -/
def unpad (p : List Byte) : List Byte := (p.rdropWhile (· == Config.pad)).dropLast

/-- The end marker is no padding byte, so the zeros after it are the ones that were added (R101). -/
theorem unpad_padded : Function.LeftInverse unpad padded := by
  intro m
  have hzeros (n : Nat) : (m ++ [Config.endMark] ++ List.replicate n Config.pad).rdropWhile (· == Config.pad) =
      m ++ [Config.endMark] := by
    induction n with
    | zero =>
      rw [List.replicate_zero, List.append_nil]
      exact List.rdropWhile_concat_neg _ _ _ (by decide)
    | succ n ih =>
      rw [List.replicate_succ', ← List.append_assoc, List.rdropWhile_concat_pos _ _ _ (by decide), ih]
  rw [unpad, padded, hzeros, List.dropLast_concat]

/-- Settles O51: a padded form is whole blocks, and the message can be read back from it. -/
theorem paddingIsInjective : Obligations.PaddingIsInjective :=
  ⟨padded_length, fun _ _ h => unpad_padded.injective h⟩

/-! ## The companions (R116, R118, R119) -/

/-- The low four bits of a byte, put above 'a', stay in 'a'..'p' (R116). -/
theorem cookie_char_range (b : Byte) : (0x61 : Byte) ≤ 0x61 + (b &&& 0x0F) ∧ 0x61 + (b &&& 0x0F) ≤ (0x70 : Byte) := by
  have hlow : (b &&& 0x0F).toNat ≤ 15 := Nat.and_le_right
  constructor <;> bv_omega

/-- Settles O53: the folded run ends in the closed form's digest, of which each character is one byte's low half. -/
theorem hashAddressIsCookieOfDigest : Obligations.HashAddressIsCookieOfDigest := by
  intro text s
  obtain ⟨t, hrun, hdigest⟩ := execAll_hashFoldedRun Config.seedValue text s
  refine ⟨cookie (digestOf Config.seedValue (filterBytes text)), ?_, fun i => ?_⟩
  · simp only [hashAddress, hrun, hdigest, Option.map_some]
  · have hchar : (cookie (digestOf Config.seedValue (filterBytes text)))[i] =
        0x61 + ((digestOf Config.seedValue (filterBytes text))[i.val] &&& 0x0F) := by
      simp [cookie]
    rw [hchar]
    exact ⟨rfl, cookie_char_range _⟩

/-- Settles O54: a hash modulo 53 put above 64 fits in the byte. -/
theorem bucketByteInRange : Obligations.BucketByteInRange := by
  intro text
  have hraw : (bucketHash text).toNat % 53 < 53 := Nat.mod_lt _ (by decide)
  have hbyte : (bucketOf text).toNat = 64 + (bucketHash text).toNat % 53 := by
    rw [bucketOf, bucketRaw, BitVec.toNat_ofNat, Nat.mod_eq_of_lt (by omega)]
  exact ⟨hbyte, by omega, by omega⟩

end Sys2Proof.Machine
